-- ==== Sys2Proof/Word.lean ====
section
/-! DEFINITION. The widths of the block's words: the byte of its memories and of the feed stream, the host's 32-bit
command word, the 16-bit result word, and the 11-bit feed key of the opcode table. -/

namespace Sys2Proof

/-- A byte: an unsigned 8-bit value (00_scope.md R17). -/
abbrev Byte := BitVec 8

/-- The host's command word, one per operation (30_encoding.md R70, R72: always exactly 32 bits). -/
abbrev CmdWord := BitVec 32

/-- The result word each operation returns (30_encoding.md R75). -/
abbrev ResultWord := BitVec 16

/-- The key `K = (IST << 8) | c` of one feed step (30_encoding.md R78). -/
abbrev FeedKey := BitVec 11

end Sys2Proof
end

