-- ==== Sys2Proof/Config.lean ====
section
/-! DEFINITION. What an implementation of the block fixes and the spec leaves open: the parameters `CODE_HOME`,
`CODE_CLS`, `FONT_LAST`, `FONT` and `PB_RESET` (00_scope.md R11, R12, R14), the constraints on them, and the one free
configuration every machine starts with. The geometry of 00_scope.md R10 (96, 16, 192, 12, 2, 16, 6, 8, 0x20) is fixed by
the spec and stands as literals in the rules that use it. -/

namespace Sys2Proof

/-- The open parameters as plain data (00_scope.md R11, R12, R14). `font` is `FONTROM`, the flat byte array of
20_memory.md R54; `pbReset` is `PB_RESET`, the 192 bytes of the Pixel Buffer before the first INIT. The values written
beside the fields only show that a legal configuration exists: no definition of the model reads them. Log entry 15. -/
structure ConfigData where
  codeHome : Byte := 0x1E#8
  codeCls  : Byte := 0x1A#8
  fontLast : Byte := 0x20#8
  font     : List Byte := List.replicate 8 0#8
  pbReset  : List Byte := List.replicate 192 0#8
  deriving DecidableEq, Repr

/-- "A configuration must make the five codes pairwise distinct" (00_scope.md R11). -/
def ConfigData.codesDistinct (d : ConfigData) : Bool :=
  decide [d.codeHome, d.codeCls, 0x1B#8, 0x0D#8, 0x0A#8].Nodup

/-- `0x20 ≤ FONT_LAST ≤ 0xFF` (00_scope.md R12). -/
def ConfigData.fontLastInRange (d : ConfigData) : Bool :=
  decide (0x20 ≤ d.fontLast.toNat)

/-- `FONTROM` is `(FONT_LAST − 0x1F) × 8` bytes long (20_memory.md R54). -/
def ConfigData.fontSized (d : ConfigData) : Bool :=
  decide (d.font.length = (d.fontLast.toNat - 0x1F) * 8)

/-- Every row of `FONT(0x20)` has bits 7..2 equal to 0 (00_scope.md R12). -/
def ConfigData.spaceBlank (d : ConfigData) : Bool :=
  (d.font.take 8).all fun b => decide (b &&& 0xFC#8 = 0#8)

/-- `PB_RESET` is 192 bytes (92_eei_decisions.md D10). -/
def ConfigData.pbResetSized (d : ConfigData) : Bool :=
  decide (d.pbReset.length = 192)

/-- Every constraint the spec puts on a configuration. -/
def ConfigData.legal (d : ConfigData) : Bool :=
  d.codesDistinct && d.fontLastInRange && d.fontSized && d.spaceBlank && d.pbResetSized

/-- A legal configuration: the data with the proof that it meets the constraints, so that the model has no other
("a model refuses a configuration that does not", 00_scope.md R11). -/
structure Config extends ConfigData where
  isLegal : toConfigData.legal = true := by decide +kernel
  deriving DecidableEq, Repr, Inhabited

/-- Loading a configuration: an illegal one is refused (00_scope.md R11, 92_eei_decisions.md D2). -/
def Config.ofData (d : ConfigData) : Option Config :=
  if h : d.legal = true then some { d with isLegal := h } else none

/-- The configuration of the machine after reset: any legal one. Nothing can be evaluated or proved of its parameters
beyond their constraints (92_eei_decisions.md D2, D4, D10). Log entries 1, 2 and 3. -/
opaque Config.machine : Config

end Sys2Proof
end

