-- ==== Sys2Proof/Syntax.lean ====
section
/-! DEFINITION. The instructions: one constructor for every row of spec/opcode_table.json, that is the eight host
operations and the reserved operation codes of 30_encoding.md R70, and the seventeen feed classes of 30_encoding.md R80. -/

namespace Sys2Proof

/-- The five interpreter states, exactly one of which `IST` holds (10_state.md R27). Log entry 9. -/
inductive Ist where
  | idle
  | afterEsc
  | awaitRow
  | awaitCol
  | awaitCfg
  deriving DecidableEq, Repr

/-- The transition classes of the feed decode function (30_encoding.md R80). -/
inductive FeedClass where
  | home | cls | escape | cr | lf | glyph
  | rowcol | cfg | eol | discard
  | row
  | col
  | cinc | cdec | binc | bdec | cnop
  deriving DecidableEq, Repr

/-- The instructions. The first nine are the host's command words (30_encoding.md R70 to R73); the others are one feed
step each, a feed byte taken in the interpreter state the name begins with (30_encoding.md R78, R80). -/
inductive Instr where
  /-- FEED: consume the feed byte `c` (44_interpreter.md R125). -/
  | feed (c : Byte)
  /-- INIT (45_redraw_init.md R166). -/
  | init
  /-- SET_PIXEL (41_pixel_buffer.md R96). -/
  | setPixel (x y : Byte) (on : Bool)
  /-- GET_PIXEL (41_pixel_buffer.md R98). -/
  | getPixel (x y : Byte)
  /-- RENDER_GLYPH (42_rasterizer.md R106). -/
  | renderGlyph (charCode row column : Byte)
  /-- REDRAW (45_redraw_init.md R160). -/
  | redraw
  /-- READ_BYTE (41_pixel_buffer.md R100). -/
  | readByte (addr : Byte)
  /-- INSPECT (45_redraw_init.md R170). -/
  | inspect (sel : Byte)
  /-- A reserved operation code, 0x8..0xF (60_exceptions.md R179). -/
  | reserved (op : BitVec 4)
  /-- IDLE, `CODE_HOME` (44_interpreter.md R127). -/
  | idleHome
  /-- IDLE, `CODE_CLS` (44_interpreter.md R128). -/
  | idleCls
  /-- IDLE, `ESC` (44_interpreter.md R129). -/
  | idleEsc
  /-- IDLE, `CR` (44_interpreter.md R130). -/
  | idleCr
  /-- IDLE, `LF` (44_interpreter.md R131). -/
  | idleLf
  /-- IDLE, every other byte (44_interpreter.md R132). -/
  | idleGlyph (c : Byte)
  /-- AFTER_ESC, `'='` (44_interpreter.md R133). -/
  | aescRowcol
  /-- AFTER_ESC, `'!'` (44_interpreter.md R134). -/
  | aescCfg
  /-- AFTER_ESC, `'T'` (44_interpreter.md R135). -/
  | aescEol
  /-- AFTER_ESC, every other byte (44_interpreter.md R136). -/
  | aescDiscard (c : Byte)
  /-- AWAIT_ROW, every byte (44_interpreter.md R139). -/
  | arow (c : Byte)
  /-- AWAIT_COL, every byte (44_interpreter.md R141). -/
  | acol (c : Byte)
  /-- AWAIT_CFG, `'C'` (44_interpreter.md R144). -/
  | cinc
  /-- AWAIT_CFG, `'c'` (44_interpreter.md R145). -/
  | cdec
  /-- AWAIT_CFG, `'B'` (44_interpreter.md R146). -/
  | binc
  /-- AWAIT_CFG, `'b'` (44_interpreter.md R147). -/
  | bdec
  /-- AWAIT_CFG, every other byte (44_interpreter.md R148). -/
  | cnop (c : Byte)
  deriving DecidableEq, Repr

/-- What an instruction is encoded in: a command word (30_encoding.md R70), or, for one feed step, the key over which
the opcode table gives the feed rows (30_encoding.md R78). -/
inductive Encoded where
  | word (w : CmdWord)
  | key (k : FeedKey)
  deriving DecidableEq, Repr

end Sys2Proof
end

