-- ==== Sys2Proof/Machine/State.lean ====
section
/-! DEFINITION. The state of the block (10_state.md), its values after reset (10_state.md R37), and the reasons a step can
stop. -/

namespace Sys2Proof.Machine

/-- One record sent to the transport (10_state.md R35, 60_exceptions.md R186). -/
inductive Event where
  /-- `DEVICE_INIT(contrast, brightness)`. -/
  | deviceInit (contrast brightness : Byte)
  /-- `CONFIG_PUSH(contrast, brightness)`. -/
  | configPush (contrast brightness : Byte)
  deriving DecidableEq, Repr

/-- The bytes of one address space that differ from what an unlisted address of the space reads as, addresses strictly
rising. -/
abbrev Memory := List Host.Cell

/-- The three address spaces (20_memory.md R59). -/
inductive Space where
  /-- The Pixel Buffer, 192 bytes (10_state.md R33). -/
  | pb
  /-- The Text Shadow Buffer, 32 bytes (10_state.md R32). -/
  | shadow
  /-- The Font Table, read-only (10_state.md R34). -/
  | fontrom
  deriving DecidableEq, Repr

/-- The whole state of the block: the registers of 10_state.md R26, the memories of R32 to R34, the event output of R35;
and, the model's own, the result word of the last operation (R36) and the command words the host has still to issue
(R31). -/
@[ext]
structure State where
  /-- The parameters of the block, the Font Table among them; constant (70_reset_and_hazards.md R204). Log entry 15. -/
  cfg : Config
  /-- `IST`, the interpreter state (10_state.md R27). -/
  ist : Ist
  /-- `CROW`, the cursor row (10_state.md R28). -/
  crow : BitVec 1
  /-- `CCOL`, the cursor column (10_state.md R28). -/
  ccol : BitVec 4
  /-- `CONTRAST` (10_state.md R29). -/
  contrast : Byte
  /-- `BRIGHTNESS` (10_state.md R29). -/
  brightness : Byte
  /-- `FAULT`, the sticky fault and warning bits (10_state.md R30). -/
  fault : BitVec 8
  /-- `SHADOW`, the Text Shadow Buffer (10_state.md R32). -/
  shadow : Memory
  /-- `PB`, the Pixel Buffer (10_state.md R33). -/
  pb : Memory
  /-- `EV`, the events sent to the transport since reset, oldest first (10_state.md R35). Log entry 14. -/
  ev : List Event
  /-- The model's own: the result word of the last operation, none where none has returned (10_state.md R36). Log
  entry 6. -/
  result : Option ResultWord
  /-- The model's own: the command words the host will issue, the next one first (10_state.md R31). Log entry 5. -/
  pending : List CmdWord
  deriving DecidableEq, Repr

/-- Why a step could stop for good. The block has no such reason: every abnormal condition is a status in the result word
and a bit of `FAULT`, after which the next operation runs normally (60_exceptions.md R175, R184). Log entry 18. -/
inductive Fault where
  deriving DecidableEq, Repr

/-- Why the model would give no meaning to an instruction. -/
inductive Refusal where
  /-- Raised by `exec` alone, for an instruction of the table that has no meaning yet; no arm raises it now. Safe. -/
  | notModelled (mnemonic : String)
  deriving DecidableEq, Repr

/-- The machine after reset (10_state.md R37, 70_reset_and_hazards.md R195; log entry 13). `SHADOW` lists nothing and reads 0x20
everywhere; `PB` lists nothing and reads `PB_RESET`; no operation has returned, and the host has issued none. -/
def State.reset : State where
  cfg := Config.machine
  ist := .idle
  crow := 0#1
  ccol := 0#4
  contrast := 128#8
  brightness := 128#8
  fault := 0#8
  shadow := []
  pb := []
  ev := []
  result := none
  pending := []

end Sys2Proof.Machine
end

