-- ==== Sys2Proof/Machine/Flags.lean ====
section
/-! DEFINITION. The statuses, the sticky bits of `FAULT`, and the layout of the result word (30_encoding.md R75,
10_state.md R30, 60_exceptions.md R176). -/

namespace Sys2Proof.Machine

/-- The status kinds (60_exceptions.md R176). -/
inductive Status where
  | ok
  | colClamped
  | glyphRange
  | reserved
  deriving DecidableEq, Repr

/-- The code of a status in bits 11..8 of the result word (30_encoding.md R75). -/
def statusCode : Status → BitVec 4
  | .ok => 0#4
  | .colClamped => 1#4
  | .glyphRange => 2#4
  | .reserved => 3#4

/-- The sticky bits of `FAULT` a status sets: bit 0 `GLYPH_RANGE`, bit 1 `COL_CLAMPED`, bit 2 `RESERVED`
(10_state.md R30). -/
def faultBits : Status → BitVec 8
  | .ok => 0x00#8
  | .colClamped => 0x02#8
  | .glyphRange => 0x01#8
  | .reserved => 0x04#8

/-- The result word: bits 15..12 zero, `STATUS` in 11..8, `DATA` in 7..0 (30_encoding.md R75). -/
def resultWord (st : Status) (data : Byte) : ResultWord :=
  0#4 ++ (statusCode st ++ data)

end Sys2Proof.Machine
end

