-- ==== Sys2Proof/WellFormed.lean ====
section
/-! DEFINITION. Which instruction terms stand for an encoding: the operands of the "every other byte" classes exclude the
bytes an earlier test of the feed decode function takes, and a reserved operation code is 0x8..0xF. -/

namespace Sys2Proof

/-- An IDLE byte of class GLYPH: none of the five control codes (30_encoding.md R80, 44_interpreter.md R132). -/
def isGlyphByte (cfg : Config) (c : Byte) : Bool :=
  c != cfg.codeHome && c != cfg.codeCls && c != 0x1B#8 && c != 0x0D#8 && c != 0x0A#8

/-- An AFTER_ESC byte of class DISCARD: not `'='`, `'!'` or `'T'` (44_interpreter.md R136). -/
def isDiscardByte (c : Byte) : Bool :=
  c != 0x3D#8 && c != 0x21#8 && c != 0x54#8

/-- An AWAIT_CFG byte of class CNOP: not `'C'`, `'c'`, `'B'` or `'b'` (44_interpreter.md R148). -/
def isCnopByte (c : Byte) : Bool :=
  c != 0x43#8 && c != 0x63#8 && c != 0x42#8 && c != 0x62#8

/-- A reserved operation code (30_encoding.md R82). -/
def isReservedOp (op : BitVec 4) : Bool :=
  decide (8 ≤ op.toNat)

/-- The instruction is one that an encoding stands for, under the configuration `cfg`. -/
def Instr.wf (cfg : Config) : Instr → Bool
  | .feed _ => true
  | .init => true
  | .setPixel _ _ _ => true
  | .getPixel _ _ => true
  | .renderGlyph _ _ _ => true
  | .redraw => true
  | .readByte _ => true
  | .inspect _ => true
  | .reserved op => isReservedOp op
  | .idleHome => true
  | .idleCls => true
  | .idleEsc => true
  | .idleCr => true
  | .idleLf => true
  | .idleGlyph c => isGlyphByte cfg c
  | .aescRowcol => true
  | .aescCfg => true
  | .aescEol => true
  | .aescDiscard c => isDiscardByte c
  | .arow _ => true
  | .acol _ => true
  | .cinc => true
  | .cdec => true
  | .binc => true
  | .bdec => true
  | .cnop c => isCnopByte c

end Sys2Proof
end

