-- ==== Sys2Proof/Decode.lean ====
section
/-! DEFINITION. The decoder of command words and of feed keys, and after it the encoder, both written from
30_encoding.md sections 1 to 3 and the rows of the opcode table. -/

namespace Sys2Proof

/-- Why an encoding is no instruction. -/
inductive Reject where
  /-- A feed key whose `IST` field is 5, 6 or 7: no interpreter state has that code (10_state.md R27). Safe.
  Log entry 9. -/
  | noSuchInterpreterState (code : BitVec 3)
  deriving DecidableEq, Repr

/-- The code of an interpreter state (10_state.md R27). -/
def Ist.code : Ist → BitVec 3
  | .idle => 0#3
  | .afterEsc => 1#3
  | .awaitRow => 2#3
  | .awaitCol => 3#3
  | .awaitCfg => 4#3

/-- The interpreter state a code stands for; 5, 6 and 7 stand for none (10_state.md R27). -/
def Ist.ofCode (k : BitVec 3) : Option Ist :=
  match k.toNat with
  | 0 => some .idle
  | 1 => some .afterEsc
  | 2 => some .awaitRow
  | 3 => some .awaitCol
  | 4 => some .awaitCfg
  | _ => none

/-! ### The command word (30_encoding.md R71, R73) -/

/-- `OP = w[31:28]`. -/
def opField (w : CmdWord) : BitVec 4 := w.extractLsb' 28 4
/-- `ON = w[24]`. -/
def onField (w : CmdWord) : Bool := w.getLsbD 24
/-- `D = w[23:16]`. -/
def dField (w : CmdWord) : Byte := w.extractLsb' 16 8
/-- `B = w[15:8]`. -/
def bField (w : CmdWord) : Byte := w.extractLsb' 8 8
/-- `A = w[7:0]`. -/
def aField (w : CmdWord) : Byte := w.extractLsb' 0 8

/-- Decoding a command word: total (30_encoding.md R70, R72, R74). Fields an operation does not use, and bits 27..25, are
ignored (30_encoding.md R71). -/
def decodeWord (w : CmdWord) : Instr :=
  match (opField w).toNat with
  | 0 => .feed (aField w)
  | 1 => .init
  | 2 => .setPixel (aField w) (bField w) (onField w)
  | 3 => .getPixel (aField w) (bField w)
  | 4 => .renderGlyph (aField w) (bField w) (dField w)
  | 5 => .redraw
  | 6 => .readByte (aField w)
  | 7 => .inspect (aField w)
  | _ => .reserved (opField w)

/-! ### The feed step (30_encoding.md R78, R80; the byte values, log entry 7) -/

/-- The feed decode function (30_encoding.md R80). In IDLE the three fixed codes are tested before the two parameters;
R80 lists the parameters first, and "the order does not change the result", because the five codes are distinct in every
configuration (`feedClassListed` in Safety.lean writes the listed order out). Log entry 4. -/
def feedClass (cfg : Config) (ist : Ist) (c : Byte) : FeedClass :=
  match ist with
  | .idle =>
    if c = 0x1B#8 then .escape
    else if c = 0x0D#8 then .cr
    else if c = 0x0A#8 then .lf
    else if c = cfg.codeHome then .home
    else if c = cfg.codeCls then .cls
    else .glyph
  | .afterEsc =>
    if c = 0x3D#8 then .rowcol
    else if c = 0x21#8 then .cfg
    else if c = 0x54#8 then .eol
    else .discard
  | .awaitRow => .row
  | .awaitCol => .col
  | .awaitCfg =>
    if c = 0x43#8 then .cinc
    else if c = 0x63#8 then .cdec
    else if c = 0x42#8 then .binc
    else if c = 0x62#8 then .bdec
    else .cnop

/-- The instruction (row of the opcode table) of a feed class, with the byte it takes. -/
def FeedClass.instr (k : FeedClass) (c : Byte) : Instr :=
  match k with
  | .home => .idleHome
  | .cls => .idleCls
  | .escape => .idleEsc
  | .cr => .idleCr
  | .lf => .idleLf
  | .glyph => .idleGlyph c
  | .rowcol => .aescRowcol
  | .cfg => .aescCfg
  | .eol => .aescEol
  | .discard => .aescDiscard c
  | .row => .arow c
  | .col => .acol c
  | .cinc => .cinc
  | .cdec => .cdec
  | .binc => .binc
  | .bdec => .bdec
  | .cnop => .cnop c

/-- `K[10:8]`, the code of `IST`. -/
def keyIst (k : FeedKey) : BitVec 3 := k.extractLsb' 8 3
/-- `K[7:0]`, the feed byte. -/
def keyByte (k : FeedKey) : Byte := k.extractLsb' 0 8

/-- Decoding a feed key: the instruction of its class, or a rejection by name where no state has its code. -/
def decodeKey (cfg : Config) (k : FeedKey) : Except Reject Instr :=
  match Ist.ofCode (keyIst k) with
  | some ist => .ok ((feedClass cfg ist (keyByte k)).instr (keyByte k))
  | none => .error (.noSuchInterpreterState (keyIst k))

/-- The decoder, total on every command word and every feed key. -/
def decode (cfg : Config) : Encoded → Except Reject Instr
  | .word w => .ok (decodeWord w)
  | .key k => decodeKey cfg k

/-- The instruction the decoder reads from bits numbered as spec/opcode_table.json numbers them. A row of format `FEED`
gives an 11-bit key, 16 bits in whole bytes; every other row gives the 32-bit command word. The two parameters of the
feed rows are those of the machine. -/
def decodeTableWord (nbits w : Nat) : Option Instr :=
  if nbits ≤ 16 then
    if w < 2048 then (decodeKey Config.machine (BitVec.ofNat 11 w)).toOption else none
  else
    if w < 4294967296 then some (decodeWord (BitVec.ofNat 32 w)) else none

/-! ### The encoder -/

/-- A command word from its fields; bits 27..25 are written as zero (30_encoding.md R71). -/
def cmdWord (op : BitVec 4) (on : Bool) (d b a : Byte) : CmdWord :=
  op ++ (0#3 ++ (BitVec.ofBool on ++ (d ++ (b ++ a))))

/-- A feed key from its fields (30_encoding.md R78). -/
def feedKey (ist : Ist) (c : Byte) : FeedKey :=
  ist.code ++ c

/-- The encoding of an instruction, unused fields zero (30_encoding.md R71, R72, R77, R78, R85). -/
def encode (cfg : Config) : Instr → Encoded
  | .feed c => .word (cmdWord 0x0#4 false 0#8 0#8 c)
  | .init => .word (cmdWord 0x1#4 false 0#8 0#8 0#8)
  | .setPixel x y on => .word (cmdWord 0x2#4 on 0#8 y x)
  | .getPixel x y => .word (cmdWord 0x3#4 false 0#8 y x)
  | .renderGlyph code row column => .word (cmdWord 0x4#4 false column row code)
  | .redraw => .word (cmdWord 0x5#4 false 0#8 0#8 0#8)
  | .readByte addr => .word (cmdWord 0x6#4 false 0#8 0#8 addr)
  | .inspect sel => .word (cmdWord 0x7#4 false 0#8 0#8 sel)
  | .reserved op => .word (cmdWord op false 0#8 0#8 0#8)
  | .idleHome => .key (feedKey .idle cfg.codeHome)
  | .idleCls => .key (feedKey .idle cfg.codeCls)
  | .idleEsc => .key (feedKey .idle 0x1B#8)
  | .idleCr => .key (feedKey .idle 0x0D#8)
  | .idleLf => .key (feedKey .idle 0x0A#8)
  | .idleGlyph c => .key (feedKey .idle c)
  | .aescRowcol => .key (feedKey .afterEsc 0x3D#8)
  | .aescCfg => .key (feedKey .afterEsc 0x21#8)
  | .aescEol => .key (feedKey .afterEsc 0x54#8)
  | .aescDiscard c => .key (feedKey .afterEsc c)
  | .arow c => .key (feedKey .awaitRow c)
  | .acol c => .key (feedKey .awaitCol c)
  | .cinc => .key (feedKey .awaitCfg 0x43#8)
  | .cdec => .key (feedKey .awaitCfg 0x63#8)
  | .binc => .key (feedKey .awaitCfg 0x42#8)
  | .bdec => .key (feedKey .awaitCfg 0x62#8)
  | .cnop c => .key (feedKey .awaitCfg c)

/-- The command word the host issues for a feed byte: `0x000000cc` (30_encoding.md R86). -/
def feedWord (c : Byte) : CmdWord := cmdWord 0x0#4 false 0#8 0#8 c

end Sys2Proof
end

