-- ==== Sys2Proof/Machine/Operands.lean ====
section
/-! DEFINITION. What the operations compute from their operands before they act: pixel addresses and masks, cell indices,
font addresses, and the row and column bytes of the cursor address sequence. -/

namespace Sys2Proof.Machine

/-- The `PB` byte of pixel `(x, y)` (20_memory.md R50). -/
def pbAddr (x y : Nat) : Nat := y * 12 + x / 8

/-- The mask of pixel column `x` in its byte, `0x80 >> (x mod 8)` (20_memory.md R51). -/
def pbMask (x : Nat) : Byte := 0x80#8 >>> (x % 8)

/-- The pixel is outside the 96 × 16 buffer (41_pixel_buffer.md R96). -/
abbrev pixelClipped (x y : Nat) : Prop := 96 ≤ x ∨ 16 ≤ y

/-- The text cell is outside the 2 × 16 grid (42_rasterizer.md R106). -/
abbrev cellClipped (row column : Nat) : Prop := 2 ≤ row ∨ 16 ≤ column

/-- The `SHADOW` byte of cell `(row, column)` (10_state.md R32). -/
def cellAddr (row column : Nat) : Nat := row * 16 + column

/-- The code is in the font: `FONT_FIRST ≤ c ≤ FONT_LAST` (42_rasterizer.md R105). -/
def inFont (cfg : Config) (c : Byte) : Bool :=
  decide (0x20 ≤ c.toNat) && decide (c.toNat ≤ cfg.fontLast.toNat)

/-- The `FONTROM` byte of bitmap row `r` of glyph `c` (20_memory.md R54). -/
def glyphAddr (c : Byte) (r : Nat) : Nat := (c.toNat - 0x20) * 8 + r

/-- Pixel column `p` of a glyph row byte, most significant bit first (20_memory.md R54). -/
def glyphBit (b : Byte) (p : Nat) : Bool := b.getLsbD (7 - p)

/-- The row an AWAIT_ROW byte gives: `c & 1` (44_interpreter.md R139). -/
def rowOfByte (c : Byte) : BitVec 1 := (c &&& 1#8).setWidth 1

/-- `(c − 0x20) mod 256` (44_interpreter.md R141). -/
def columnValue (c : Byte) : Byte := c - 0x20#8

/-- An AWAIT_COL byte whose column is above 15 (44_interpreter.md R141). -/
def columnClamped (c : Byte) : Bool := decide (15 < (columnValue c).toNat)

/-- The column an AWAIT_COL byte gives, clamped to 15 (44_interpreter.md R141). -/
def columnOfByte (c : Byte) : BitVec 4 :=
  if columnClamped c then 15#4 else (columnValue c).setWidth 4

/-- The registers INSPECT selects by number (45_redraw_init.md R170). -/
inductive Selected where
  | ist | crow | ccol | contrast | brightness | fault
  | shadow (addr : Nat)
  | unlisted
  deriving DecidableEq, Repr

/-- What an INSPECT selector selects (45_redraw_init.md R170). -/
def selected (sel : Byte) : Selected :=
  match sel.toNat with
  | 0 => .ist
  | 1 => .crow
  | 2 => .ccol
  | 3 => .contrast
  | 4 => .brightness
  | 5 => .fault
  | n => if 0x40 ≤ n ∧ n ≤ 0x5F then .shadow (n - 0x40) else .unlisted

end Sys2Proof.Machine
end

