-- ==== Sys2Proof/Machine/Ops.lean ====
section
/-! DEFINITION. The named operations every meaning is made of: memory access, the internal procedures of the spec, events,
and raising a status. A procedure that may raise a fault answers `Except Status State`: an error is the fault raised, and
then nothing the procedure did stands (00_scope.md R20: "the operation stops before it has changed any other state"). -/

namespace Sys2Proof.Machine

/-! ### Memory (00_scope.md R19, 20_memory.md R55 to R59) -/

/-- The entry at an address, if one is listed. -/
def Memory.lookup : Memory → Nat → Option Byte
  | [], _ => none
  | (k, v) :: m, a => if k = a then some v else Memory.lookup m a

/-- The memory with the entry `(a, v)`, the order of addresses kept. -/
def Memory.put : Memory → Nat → Byte → Memory
  | [], a, v => [(a, v)]
  | (k, w) :: m, a, v =>
    if k < a then (k, w) :: Memory.put m a v
    else if k = a then (a, v) :: m
    else (a, v) :: (k, w) :: m

/-- The memory without any entry at `a`. -/
def Memory.drop : Memory → Nat → Memory
  | [], _ => []
  | (k, w) :: m, a => if k = a then Memory.drop m a else (k, w) :: Memory.drop m a

/-- Reading one byte, where `unl` says what an unlisted address reads as. -/
def Memory.read (unl : Nat → Byte) (m : Memory) (a : Nat) : Byte :=
  (Memory.lookup m a).getD (unl a)

/-- Writing one byte; a byte equal to what an unlisted address reads as is not listed. -/
def Memory.write (unl : Nat → Byte) (m : Memory) (a : Nat) (v : Byte) : Memory :=
  if v = unl a then Memory.drop m a else Memory.put m a v

/-- The canonical form of a memory of `size` bytes: addresses strictly rising and inside the space, no entry equal to what
an unlisted address reads as. Log entry 10. -/
def Memory.wf (unl : Nat → Byte) (size : Nat) (m : Memory) : Bool :=
  decide (m.Pairwise fun p q => p.1 < q.1) &&
    m.all fun p => decide (p.1 < size) && decide (p.2 ≠ unl p.1)

/-- What an unlisted address reads as: in `PB` the byte of `PB_RESET`, in `SHADOW` a space (10_state.md R37), in `FONTROM`
the byte of `FONT` (20_memory.md R54). -/
def unlisted (cfg : Config) : Space → Nat → Byte
  | .pb, a => cfg.pbReset.getD a 0#8
  | .shadow, _ => 0x20#8
  | .fontrom, a => cfg.font.getD a 0#8

/-- The number of bytes of a space (20_memory.md R59). -/
def spaceSize (cfg : Config) : Space → Nat
  | .pb => 192
  | .shadow => 32
  | .fontrom => (cfg.fontLast.toNat - 0x1F) * 8

/-- The listed bytes of a space; `FONTROM` is never written, so it lists none (10_state.md R34). -/
def State.space (s : State) : Space → Memory
  | .pb => s.pb
  | .shadow => s.shadow
  | .fontrom => []

/-- `MemRead(space, addr, 1)` (00_scope.md R19). -/
def State.memRead (s : State) (sp : Space) (a : Nat) : Byte :=
  Memory.read (unlisted s.cfg sp) (s.space sp) a

/-- `MemWrite(space, addr, 1, v)` (00_scope.md R19). The Font Table is read-only (10_state.md R34): no operation writes
it, and a write there would change nothing. Log entry 16. -/
def State.memWrite (s : State) (sp : Space) (a : Nat) (v : Byte) : State :=
  match sp with
  | .pb => { s with pb := Memory.write (unlisted s.cfg .pb) s.pb a v }
  | .shadow => { s with shadow := Memory.write (unlisted s.cfg .shadow) s.shadow a v }
  | .fontrom => s

/-! ### Results, statuses and events -/

/-- The operation completes with `data`, status `OK` (30_encoding.md R75). -/
def State.complete (s : State) (data : Byte) : State :=
  { s with result := some (resultWord .ok data) }

/-- `raise F` (00_scope.md R20), the block's one way to take an exception: the result status becomes `F`, with DATA 0, and
the sticky bit of `F` in `FAULT` is set. No state is saved, no mode changes and no vector is taken (60_exceptions.md R175,
R183), and there is nothing to return from (60_exceptions.md R184). -/
def State.raise (s : State) (f : Status) : State :=
  { s with fault := s.fault ||| faultBits f, result := some (resultWord f 0#8) }

/-- The end of an operation whose body is the procedure outcome `p`, begun in state `s`: it completes with DATA 0, or the
fault is raised over `s`, of which the operation has changed nothing (60_exceptions.md R176, R183). Log entry 11. -/
def State.conclude (s : State) (p : Except Status State) : State :=
  match p with
  | .ok t => t.complete 0#8
  | .error f => s.raise f

/-- `Emit(e)` (00_scope.md R20, 60_exceptions.md R187). -/
def State.emit (s : State) (e : Event) : State :=
  { s with ev := s.ev ++ [e] }

/-! ### Pixels (41_pixel_buffer.md) -/

/-- `setPixel(x, y, on)` (41_pixel_buffer.md R96). -/
def State.setPixel (s : State) (x y : Nat) (on : Bool) : State :=
  if pixelClipped x y then s
  else
    let old := s.memRead .pb (pbAddr x y)
    s.memWrite .pb (pbAddr x y) (if on then old ||| pbMask x else old &&& ~~~(pbMask x))

/-- `getPixel(x, y)` (41_pixel_buffer.md R98); out of range reads as 0. -/
def State.getPixel (s : State) (x y : Nat) : Bool :=
  if pixelClipped x y then false
  else decide (s.memRead .pb (pbAddr x y) &&& pbMask x ≠ 0#8)

/-- READ_BYTE's data (41_pixel_buffer.md R100); an address of 192 or above reads as 0. -/
def State.readByte (s : State) (addr : Nat) : Byte :=
  if 192 ≤ addr then 0#8 else s.memRead .pb addr

/-! ### Glyphs (42_rasterizer.md) -/

/-- `glyphRow(c, r)` (42_rasterizer.md R105). -/
def State.glyphRow (s : State) (c : Byte) (r : Nat) : Byte :=
  s.memRead .fontrom (glyphAddr c r)

/-- One bitmap row of a glyph: the inner loop of `renderGlyph` (42_rasterizer.md R106). -/
def State.drawGlyphRow (s : State) (b : Byte) (r row column : Nat) : State :=
  (List.range 6).foldl (fun t p => t.setPixel (column * 6 + p) (row * 8 + r) (glyphBit b p)) s

/-- The 48 pixel writes of `renderGlyph` (42_rasterizer.md R106). -/
def State.drawGlyph (s : State) (c : Byte) (row column : Nat) : State :=
  (List.range 8).foldl (fun t r => t.drawGlyphRow (t.glyphRow c r) r row column) s

/-- `renderGlyph(charCode, row, column)` (42_rasterizer.md R106): clipping is checked first, then the font range. -/
def State.renderGlyph (s : State) (c : Byte) (row column : Nat) : Except Status State :=
  if cellClipped row column then .ok s
  else if inFont s.cfg c then .ok (s.drawGlyph c row column)
  else .error .glyphRange

/-! ### The cursor (43_cursor.md) -/

/-- `home()` (43_cursor.md R115). -/
def State.home (s : State) : State :=
  { s with crow := 0#1, ccol := 0#4 }

/-- `carriageReturn()` (43_cursor.md R116). -/
def State.carriageReturn (s : State) : State :=
  { s with ccol := 0#4 }

/-- `lineFeed()` (43_cursor.md R117). -/
def State.lineFeed (s : State) : State :=
  { s with crow := s.crow + 1#1 }

/-- `advanceAfterGlyph()` (43_cursor.md R118). -/
def State.advanceAfterGlyph (s : State) : State :=
  if s.ccol = 15#4 then
    if s.crow ≠ 0#1 then s.home
    else { s with crow := 1#1, ccol := 0#4 }
  else { s with ccol := s.ccol + 1#4 }

/-- Restoring a saved cursor (10_state.md R38). -/
def State.restoreCursor (s : State) (crow : BitVec 1) (ccol : BitVec 4) : State :=
  { s with crow := crow, ccol := ccol }

/-! ### Text (44_interpreter.md section 7, 45_redraw_init.md) -/

/-- `displayGlyph(c)` (44_interpreter.md R152). -/
def State.displayGlyph (s : State) (c : Byte) : Except Status State :=
  if inFont s.cfg c then
    match (s.memWrite .shadow (cellAddr s.crow.toNat s.ccol.toNat) c).renderGlyph c s.crow.toNat s.ccol.toNat with
    | .ok t => .ok t.advanceAfterGlyph
    | .error f => .error f
  else .error .glyphRange

/-- `displayGlyph(0x20)` repeated `n` times: the loop of `clearToEndOfLine`. -/
def State.displaySpaces (s : State) : Nat → Except Status State
  | 0 => .ok s
  | n + 1 =>
    match s.displayGlyph 0x20#8 with
    | .ok t => t.displaySpaces n
    | .error f => .error f

/-- `clearToEndOfLine()` (44_interpreter.md R155). -/
def State.clearToEndOfLine (s : State) : Except Status State :=
  match s.displaySpaces (16 - s.ccol.toNat) with
  | .ok t => .ok (t.restoreCursor s.crow s.ccol)
  | .error f => .error f

/-- The 32 text cells in row-major order (45_redraw_init.md R160). -/
def allCells : List (Nat × Nat) :=
  (List.range 2).flatMap fun row => (List.range 16).map fun column => (row, column)

/-- Rendering the `SHADOW` code of each cell of a list, in order: the loops of `redraw` (45_redraw_init.md R160). -/
def State.renderCells (s : State) : List (Nat × Nat) → Except Status State
  | [] => .ok s
  | (row, column) :: cells =>
    match s.renderGlyph (s.memRead .shadow (cellAddr row column)) row column with
    | .ok t => t.renderCells cells
    | .error f => .error f

/-- `redraw()` (45_redraw_init.md R160). -/
def State.redraw (s : State) : Except Status State :=
  match s.home.renderCells allCells with
  | .ok t => .ok (t.restoreCursor s.crow s.ccol)
  | .error f => .error f

/-- The 32 writes of 0x20 to `SHADOW` (45_redraw_init.md R163). -/
def State.clearShadow (s : State) : State :=
  (List.range 32).foldl (fun t i => t.memWrite .shadow i 0x20#8) s

/-- `fullClear()` (45_redraw_init.md R163). -/
def State.fullClear (s : State) : Except Status State :=
  match (s.emit (.deviceInit s.contrast s.brightness)).clearShadow.redraw with
  | .ok t => .ok t.home
  | .error f => .error f

/-- The common part of AWAIT_CFG: one `CONFIG_PUSH` of the values after the update, then IDLE (44_interpreter.md R142). -/
def State.pushConfig (s : State) : State :=
  { s.emit (.configPush s.contrast s.brightness) with ist := .idle }

end Sys2Proof.Machine
end

