-- ==== Sys2Proof/Machine/Control.lean ====
section
/-! DEFINITION. The remaining host operations: INIT, REDRAW, INSPECT (45_redraw_init.md) and the reserved operation codes
(60_exceptions.md R179). -/

namespace Sys2Proof.Machine

/-- INIT (45_redraw_init.md R166): `IST <- IDLE`, then the full clear. -/
def execInit (s : State) : Host.Outcome State Fault Refusal :=
  .next (s.conclude { s with ist := .idle }.fullClear)

/-- REDRAW (45_redraw_init.md R160). -/
def execRedraw (s : State) : Host.Outcome State Fault Refusal :=
  .next (s.conclude s.redraw)

/-- INSPECT (45_redraw_init.md R170). -/
def execInspect (sel : Byte) (s : State) : Host.Outcome State Fault Refusal :=
  .next
    (match selected sel with
     | .ist => s.complete (s.ist.code.setWidth 8)
     | .crow => s.complete (s.crow.setWidth 8)
     | .ccol => s.complete (s.ccol.setWidth 8)
     | .contrast => s.complete s.contrast
     | .brightness => s.complete s.brightness
     | .fault => s.complete s.fault
     | .shadow a => s.complete (s.memRead .shadow a)
     | .unlisted => s.raise .reserved)

/-- RESERVED, OP 0x8..0xF (60_exceptions.md R179): nothing but the status and `FAULT[2]`. -/
def execReserved (_op : BitVec 4) (s : State) : Host.Outcome State Fault Refusal :=
  .next (s.raise .reserved)

end Sys2Proof.Machine
end

