-- ==== Sys2Proof/Machine/Interpreter.lean ====
section
/-! DEFINITION. The escape-sequence state machine (44_interpreter.md): one feed step for each class, and FEED, which
performs the step of the class of its byte. -/

namespace Sys2Proof.Machine

/-! ### The step of each class

Each rule is performed as it stands, whatever `IST` is; FEED alone chooses the class (log entry 12). -/

/-- IDLE, class HOME (44_interpreter.md R127). -/
def State.feedHome (s : State) : State :=
  s.home.complete 0#8

/-- IDLE, class CLS (44_interpreter.md R128). -/
def State.feedCls (s : State) : State :=
  s.conclude s.fullClear

/-- IDLE, class ESCAPE (44_interpreter.md R129). -/
def State.feedEscape (s : State) : State :=
  { s with ist := .afterEsc }.complete 0#8

/-- IDLE, class CR (44_interpreter.md R130). -/
def State.feedCr (s : State) : State :=
  s.carriageReturn.complete 0#8

/-- IDLE, class LF (44_interpreter.md R131). -/
def State.feedLf (s : State) : State :=
  s.lineFeed.complete 0#8

/-- IDLE, class GLYPH (44_interpreter.md R132). -/
def State.feedGlyph (s : State) (c : Byte) : State :=
  s.conclude (s.displayGlyph c)

/-- AFTER_ESC, class ROWCOL (44_interpreter.md R133). -/
def State.feedRowcol (s : State) : State :=
  { s with ist := .awaitRow }.complete 0#8

/-- AFTER_ESC, class CFG (44_interpreter.md R134). -/
def State.feedCfg (s : State) : State :=
  { s with ist := .awaitCfg }.complete 0#8

/-- AFTER_ESC, class EOL (44_interpreter.md R135). -/
def State.feedEol (s : State) : State :=
  s.conclude
    (match s.clearToEndOfLine with
     | .ok t => .ok { t with ist := .idle }
     | .error f => .error f)

/-- AFTER_ESC, class DISCARD (44_interpreter.md R136). -/
def State.feedDiscard (s : State) (_c : Byte) : State :=
  { s with ist := .idle }.complete 0#8

/-- AWAIT_ROW, class ROW (44_interpreter.md R139). -/
def State.feedRow (s : State) (c : Byte) : State :=
  { s with crow := rowOfByte c, ist := .awaitCol }.complete 0#8

/-- AWAIT_COL, class COL (44_interpreter.md R141): the transition completes; a clamped column raises the warning. -/
def State.feedCol (s : State) (c : Byte) : State :=
  let t := { s with ccol := columnOfByte c, ist := .idle }
  if columnClamped c then t.raise .colClamped else t.complete 0#8

/-- AWAIT_CFG, class CINC (44_interpreter.md R144). -/
def State.feedCinc (s : State) : State :=
  { s with contrast := s.contrast + 1#8 }.pushConfig.complete 0#8

/-- AWAIT_CFG, class CDEC (44_interpreter.md R145). -/
def State.feedCdec (s : State) : State :=
  { s with contrast := s.contrast + 255#8 }.pushConfig.complete 0#8

/-- AWAIT_CFG, class BINC (44_interpreter.md R146). -/
def State.feedBinc (s : State) : State :=
  { s with brightness := s.brightness + 1#8 }.pushConfig.complete 0#8

/-- AWAIT_CFG, class BDEC (44_interpreter.md R147). -/
def State.feedBdec (s : State) : State :=
  { s with brightness := s.brightness + 255#8 }.pushConfig.complete 0#8

/-- AWAIT_CFG, class CNOP (44_interpreter.md R148). -/
def State.feedCnop (s : State) (_c : Byte) : State :=
  s.pushConfig.complete 0#8

/-- The step of a class (44_interpreter.md R125: "perform the rule of class k"). -/
def State.feedStep (s : State) (k : FeedClass) (c : Byte) : State :=
  match k with
  | .home => s.feedHome
  | .cls => s.feedCls
  | .escape => s.feedEscape
  | .cr => s.feedCr
  | .lf => s.feedLf
  | .glyph => s.feedGlyph c
  | .rowcol => s.feedRowcol
  | .cfg => s.feedCfg
  | .eol => s.feedEol
  | .discard => s.feedDiscard c
  | .row => s.feedRow c
  | .col => s.feedCol c
  | .cinc => s.feedCinc
  | .cdec => s.feedCdec
  | .binc => s.feedBinc
  | .bdec => s.feedBdec
  | .cnop => s.feedCnop c

/-! ### The meanings -/

/-- FEED (44_interpreter.md R125). -/
def execFeed (c : Byte) (s : State) : Host.Outcome State Fault Refusal :=
  .next (s.feedStep (feedClass s.cfg s.ist c) c)

/-- IDLE_HOME (44_interpreter.md R127). -/
def execIdleHome (s : State) : Host.Outcome State Fault Refusal := .next s.feedHome

/-- IDLE_CLS (44_interpreter.md R128). -/
def execIdleCls (s : State) : Host.Outcome State Fault Refusal := .next s.feedCls

/-- IDLE_ESC (44_interpreter.md R129). -/
def execIdleEsc (s : State) : Host.Outcome State Fault Refusal := .next s.feedEscape

/-- IDLE_CR (44_interpreter.md R130). -/
def execIdleCr (s : State) : Host.Outcome State Fault Refusal := .next s.feedCr

/-- IDLE_LF (44_interpreter.md R131). -/
def execIdleLf (s : State) : Host.Outcome State Fault Refusal := .next s.feedLf

/-- IDLE_GLYPH (44_interpreter.md R132). -/
def execIdleGlyph (c : Byte) (s : State) : Host.Outcome State Fault Refusal := .next (s.feedGlyph c)

/-- AESC_ROWCOL (44_interpreter.md R133). -/
def execAescRowcol (s : State) : Host.Outcome State Fault Refusal := .next s.feedRowcol

/-- AESC_CFG (44_interpreter.md R134). -/
def execAescCfg (s : State) : Host.Outcome State Fault Refusal := .next s.feedCfg

/-- AESC_EOL (44_interpreter.md R135). -/
def execAescEol (s : State) : Host.Outcome State Fault Refusal := .next s.feedEol

/-- AESC_DISCARD (44_interpreter.md R136). -/
def execAescDiscard (c : Byte) (s : State) : Host.Outcome State Fault Refusal := .next (s.feedDiscard c)

/-- AROW (44_interpreter.md R139). -/
def execArow (c : Byte) (s : State) : Host.Outcome State Fault Refusal := .next (s.feedRow c)

/-- ACOL (44_interpreter.md R141). -/
def execAcol (c : Byte) (s : State) : Host.Outcome State Fault Refusal := .next (s.feedCol c)

/-- CINC (44_interpreter.md R144). -/
def execCinc (s : State) : Host.Outcome State Fault Refusal := .next s.feedCinc

/-- CDEC (44_interpreter.md R145). -/
def execCdec (s : State) : Host.Outcome State Fault Refusal := .next s.feedCdec

/-- BINC (44_interpreter.md R146). -/
def execBinc (s : State) : Host.Outcome State Fault Refusal := .next s.feedBinc

/-- BDEC (44_interpreter.md R147). -/
def execBdec (s : State) : Host.Outcome State Fault Refusal := .next s.feedBdec

/-- CNOP (44_interpreter.md R148). -/
def execCnop (c : Byte) (s : State) : Host.Outcome State Fault Refusal := .next (s.feedCnop c)

end Sys2Proof.Machine
end

