-- ==== Sys2Proof/Machine/PixelBuffer.lean ====
section
/-! DEFINITION. The pixel and glyph operations of the host: SET_PIXEL, GET_PIXEL, READ_BYTE (41_pixel_buffer.md) and
RENDER_GLYPH (42_rasterizer.md). -/

namespace Sys2Proof.Machine

/-- SET_PIXEL (41_pixel_buffer.md R96). -/
def execSetPixel (x y : Byte) (on : Bool) (s : State) : Host.Outcome State Fault Refusal :=
  .next ((s.setPixel x.toNat y.toNat on).complete 0#8)

/-- GET_PIXEL (41_pixel_buffer.md R98): the pixel in bit 0 of DATA, bits 7..1 zero. -/
def execGetPixel (x y : Byte) (s : State) : Host.Outcome State Fault Refusal :=
  .next (s.complete ((BitVec.ofBool (s.getPixel x.toNat y.toNat)).setWidth 8))

/-- READ_BYTE (41_pixel_buffer.md R100). -/
def execReadByte (addr : Byte) (s : State) : Host.Outcome State Fault Refusal :=
  .next (s.complete (s.readByte addr.toNat))

/-- RENDER_GLYPH (42_rasterizer.md R106). -/
def execRenderGlyph (charCode row column : Byte) (s : State) : Host.Outcome State Fault Refusal :=
  .next (s.conclude (s.renderGlyph charCode row.toNat column.toNat))

end Sys2Proof.Machine
end

