-- ==== Sys2Proof/Machine/Dispatch.lean ====
section
/-! DEFINITION. The meaning of each instruction, one arm per constructor. -/

namespace Sys2Proof.Machine

/-- One instruction, performed as one atomic step (00_scope.md R16). -/
def exec (i : Instr) (s : State) : Host.Outcome State Fault Refusal :=
  match i with
  | .feed c => Sys2Proof.Machine.execFeed c s
  | .init => Sys2Proof.Machine.execInit s
  | .setPixel x y on => Sys2Proof.Machine.execSetPixel x y on s
  | .getPixel x y => Sys2Proof.Machine.execGetPixel x y s
  | .renderGlyph charCode row column => Sys2Proof.Machine.execRenderGlyph charCode row column s
  | .redraw => Sys2Proof.Machine.execRedraw s
  | .readByte addr => Sys2Proof.Machine.execReadByte addr s
  | .inspect sel => Sys2Proof.Machine.execInspect sel s
  | .reserved op => Sys2Proof.Machine.execReserved op s
  | .idleHome => Sys2Proof.Machine.execIdleHome s
  | .idleCls => Sys2Proof.Machine.execIdleCls s
  | .idleEsc => Sys2Proof.Machine.execIdleEsc s
  | .idleCr => Sys2Proof.Machine.execIdleCr s
  | .idleLf => Sys2Proof.Machine.execIdleLf s
  | .idleGlyph c => Sys2Proof.Machine.execIdleGlyph c s
  | .aescRowcol => Sys2Proof.Machine.execAescRowcol s
  | .aescCfg => Sys2Proof.Machine.execAescCfg s
  | .aescEol => Sys2Proof.Machine.execAescEol s
  | .aescDiscard c => Sys2Proof.Machine.execAescDiscard c s
  | .arow c => Sys2Proof.Machine.execArow c s
  | .acol c => Sys2Proof.Machine.execAcol c s
  | .cinc => Sys2Proof.Machine.execCinc s
  | .cdec => Sys2Proof.Machine.execCdec s
  | .binc => Sys2Proof.Machine.execBinc s
  | .bdec => Sys2Proof.Machine.execBdec s
  | .cnop c => Sys2Proof.Machine.execCnop c s

end Sys2Proof.Machine
end

