-- ==== Sys2Proof/Machine/Step.lean ====
section
/-! DEFINITION. One step of the block: the host's next command word is decoded and performed (00_scope.md R16). -/

namespace Sys2Proof.Machine

/-- One step: the block takes the next command word the host issues and performs it (20_memory.md R62). While the host
issues none the block does nothing: it has no background activity (60_exceptions.md R185). Log entries 5 and 17. -/
def step (s : State) : Host.Outcome State Fault Refusal :=
  match s.pending with
  | [] => .next s
  | w :: rest => exec (decodeWord w) { s with pending := rest }

/-- The state in which the host issues the given instruction next. A row of format `FEED` is a feed key: its byte becomes
a FEED word, and `IST` becomes the state it is decoded in (30_encoding.md R78). Every other row is a command word. -/
def State.withFetchWord (s : State) (nbits w : Nat) : State :=
  if nbits ≤ 16 then
    let k : FeedKey := BitVec.ofNat 11 w
    { s with ist := (Ist.ofCode (keyIst k)).getD s.ist, pending := feedWord (keyByte k) :: s.pending }
  else
    { s with pending := BitVec.ofNat 32 w :: s.pending }

end Sys2Proof.Machine
end

