-- ==== Sys2Proof/Machine/Assembler.lean ====
section
/-! DEFINITION. The spec's notation for host operations and feed streams (30_encoding.md R85, R86, R87), read from
characters: one operation a line, a stream of items, and the pseudo-sequences, which are expanded before they are fed. The
notation stands in front of the block: no state is involved. Log entry 8. -/

namespace Sys2Proof.Machine

/-! ### Tokens -/

/-- What a line or a stream is made of: a run of letters and digits, a quoted character, a quoted string. -/
inductive Token where
  | plain (letters : List Char)
  | quoted (b : Byte)
  | text (bytes : List Byte)
  deriving DecidableEq, Repr

/-- Where the reader of characters stands: in a run of letters, or in a string, what it has read being reversed. -/
inductive Reading where
  | plain (letters : List Char)
  | text (bytes : List Byte)
  deriving DecidableEq, Repr

/-- The ASCII byte of a character (30_encoding.md R85, R86). -/
def asciiByte (c : Char) : Option Byte :=
  if c.toNat < 128 then some (BitVec.ofNat 8 c.toNat) else none

/-- The token of the letters read so far, if there are any. -/
def endRun (letters : List Char) (ts : List Token) : List Token :=
  if letters = [] then ts else .plain letters.reverse :: ts

/-- Reading tokens: items are separated by spaces or commas (30_encoding.md R86); 39 is the quote of a character, 34 that
of a string. -/
def tokens : Reading → List Char → Option (List Token)
  | .plain run, [] => some (endRun run [])
  | .text _, [] => none
  | .text bytes, c :: cs =>
    if c.toNat = 34 then (tokens (.plain []) cs).map (.text bytes.reverse :: ·)
    else
      match asciiByte c with
      | some b => tokens (.text (b :: bytes)) cs
      | none => none
  | .plain run, c :: cs =>
    if c.toNat = 32 ∨ c.toNat = 44 then (tokens (.plain []) cs).map (endRun run)
    else if c.toNat = 34 then
      if run = [] then tokens (.text []) cs else none
    else if c.toNat = 39 then
      match run, cs with
      | [], x :: q :: cs' =>
        if q.toNat = 39 then
          match asciiByte x with
          | some b => (tokens (.plain []) cs').map (.quoted b :: ·)
          | none => none
        else none
      | _, _ => none
    else tokens (.plain (c :: run)) cs

/-! ### Numbers -/

/-- The value of a digit in base 10 or 16. -/
def digitValue (base : Nat) (c : Char) : Option Nat :=
  let n := c.toNat
  let v := if 48 ≤ n ∧ n ≤ 57 then n - 48 else if 65 ≤ n ∧ n ≤ 70 then n - 55 else if 97 ≤ n ∧ n ≤ 102 then n - 87 else 16
  if v < base then some v else none

/-- The value of a run of digits, read from the left after the value `acc`. -/
def digitsValue (base : Nat) : List Char → Nat → Option Nat
  | [], acc => some acc
  | c :: cs, acc =>
    match digitValue base c with
    | some v => digitsValue base cs (acc * base + v)
    | none => none

/-- A number of at most 8 bits, `0x` hexadecimal (30_encoding.md R73, R85, R86). -/
def hexByte : List Char → Option Byte
  | '0' :: 'x' :: d :: ds =>
    match digitsValue 16 (d :: ds) 0 with
    | some n => if n < 256 then some (BitVec.ofNat 8 n) else none
    | none => none
  | _ => none

/-- A number of at most 8 bits, decimal (30_encoding.md R73, R85). -/
def decimalByte : List Char → Option Byte
  | [] => none
  | d :: ds =>
    match digitsValue 10 (d :: ds) 0 with
    | some n => if n < 256 then some (BitVec.ofNat 8 n) else none
    | none => none

/-- An operand as the rule lists them: a decimal number, a hexadecimal number or a quoted character (30_encoding.md R85). A
named code is none of these; FEED alone takes one (`feedOperand`, log entry 8). -/
def operandByte : Token → Option Byte
  | .quoted b => some b
  | .plain w => (decimalByte w).orElse fun _ => hexByte w
  | .text _ => none

/-- The operands of a line, all of them. -/
def operandBytes : List Token → Option (List Byte)
  | [] => some []
  | t :: ts =>
    match operandByte t, operandBytes ts with
    | some b, some bs => some (b :: bs)
    | _, _ => none

/-! ### Host operations (30_encoding.md R85) -/

/-- An operation from its name and its operands. -/
def operation (name : List Char) (operands : List Byte) : Option Instr :=
  if name = ['F', 'E', 'E', 'D'] then
    match operands with
    | [c] => some (.feed c)
    | _ => none
  else if name = ['I', 'N', 'I', 'T'] then
    match operands with
    | [] => some .init
    | _ => none
  else if name = ['S', 'E', 'T', '_', 'P', 'I', 'X', 'E', 'L'] then
    match operands with
    | [x, y, on] => if on = 1#8 then some (.setPixel x y true) else if on = 0#8 then some (.setPixel x y false) else none
    | _ => none
  else if name = ['G', 'E', 'T', '_', 'P', 'I', 'X', 'E', 'L'] then
    match operands with
    | [x, y] => some (.getPixel x y)
    | _ => none
  else if name = ['R', 'E', 'N', 'D', 'E', 'R', '_', 'G', 'L', 'Y', 'P', 'H'] then
    match operands with
    | [code, row, column] => some (.renderGlyph code row column)
    | _ => none
  else if name = ['R', 'E', 'D', 'R', 'A', 'W'] then
    match operands with
    | [] => some .redraw
    | _ => none
  else if name = ['R', 'E', 'A', 'D', '_', 'B', 'Y', 'T', 'E'] then
    match operands with
    | [addr] => some (.readByte addr)
    | _ => none
  else if name = ['I', 'N', 'S', 'P', 'E', 'C', 'T'] then
    match operands with
    | [sel] => some (.inspect sel)
    | _ => none
  else none

/-- The byte of a code named where FEED takes its operand (00_scope.md R11). R85 lists no names among the operands of a
line; the spec's own lines write `FEED ESC`, `FEED CR`, `FEED LF`, `FEED CODE_HOME` and `FEED CODE_CLS`
(95_test_vectors.md sections 3.1, 3.4 and 3.5). DEDUCED from these lines; `HOME` and `CLS`, the names of a feed stream,
are DESIGN CHOICE. Safe. Log entry 8. -/
def namedCode (cfg : Config) (w : List Char) : Option Byte :=
  if w = ['E', 'S', 'C'] then some 0x1B#8
  else if w = ['C', 'R'] then some 0x0D#8
  else if w = ['L', 'F'] then some 0x0A#8
  else if w = ['C', 'O', 'D', 'E', '_', 'H', 'O', 'M', 'E'] ∨ w = ['H', 'O', 'M', 'E'] then some cfg.codeHome
  else if w = ['C', 'O', 'D', 'E', '_', 'C', 'L', 'S'] ∨ w = ['C', 'L', 'S'] then some cfg.codeCls
  else none

/-- The operand of FEED: an operand as R85 lists them, or a named code (30_encoding.md R85; log entry 8). -/
def feedOperand (cfg : Config) : Token → Option Byte
  | .plain w => (operandByte (.plain w)).orElse fun _ => namedCode cfg w
  | t => operandByte t

/-- The operands of the operation `name`; only FEED takes a named code (log entry 8). -/
def lineOperands (cfg : Config) (name : List Char) (ts : List Token) : Option (List Byte) :=
  match ts with
  | [t] => if name = ['F', 'E', 'E', 'D'] then (feedOperand cfg t).map fun b => [b] else operandBytes [t]
  | _ => operandBytes ts

/-- The operation a line stands for, under the configuration whose codes its names mean. -/
def readLine (cfg : Config) (line : List Char) : Option Instr :=
  match tokens (.plain []) line with
  | some (.plain name :: ts) =>
    match lineOperands cfg name ts with
    | some operands => operation name operands
    | none => none
  | _ => none

/-- The command word of a line: assembly follows 30_encoding.md R71. -/
def assembleLine (cfg : Config) (line : List Char) : Option CmdWord :=
  match readLine cfg line with
  | some i =>
    match encode cfg i with
    | .word w => some w
    | .key _ => none
  | none => none

/-! ### Feed streams (30_encoding.md R86) and pseudo-sequences (30_encoding.md R87) -/

/-- One item of a feed stream. -/
inductive StreamItem where
  | esc | cr | lf | home | cls
  | byte (b : Byte)
  | text (bytes : List Byte)
  | goto (r : BitVec 1) (col : BitVec 4)
  | eol | conInc | conDec | briInc | briDec | cfgPush
  deriving DecidableEq, Repr

/-- The bytes an item stands for; a pseudo-sequence is expanded (30_encoding.md R86, R87). -/
def StreamItem.bytes (cfg : Config) : StreamItem → List Byte
  | .esc => [0x1B#8]
  | .cr => [0x0D#8]
  | .lf => [0x0A#8]
  | .home => [cfg.codeHome]
  | .cls => [cfg.codeCls]
  | .byte b => [b]
  | .text bs => bs
  | .goto r col => [0x1B#8, 0x3D#8, r.setWidth 8, 0x20#8 + col.setWidth 8]
  | .eol => [0x1B#8, 0x54#8]
  | .conInc => [0x1B#8, 0x21#8, 0x43#8]
  | .conDec => [0x1B#8, 0x21#8, 0x63#8]
  | .briInc => [0x1B#8, 0x21#8, 0x42#8]
  | .briDec => [0x1B#8, 0x21#8, 0x62#8]
  | .cfgPush => [0x1B#8, 0x21#8, 0x00#8]

/-- The command words of a stream: one FEED word a byte (30_encoding.md R86). -/
def streamWords (cfg : Config) (items : List StreamItem) : List CmdWord :=
  (items.flatMap (StreamItem.bytes cfg)).map feedWord

/-- The item a run of letters stands for, where it takes no operands. -/
def namedItem (w : List Char) : Option StreamItem :=
  if w = ['E', 'S', 'C'] then some .esc
  else if w = ['C', 'R'] then some .cr
  else if w = ['L', 'F'] then some .lf
  else if w = ['H', 'O', 'M', 'E'] then some .home
  else if w = ['C', 'L', 'S'] then some .cls
  else if w = ['E', 'O', 'L'] then some .eol
  else if w = ['C', 'O', 'N', '+'] then some .conInc
  else if w = ['C', 'O', 'N', '-'] then some .conDec
  else if w = ['B', 'R', 'I', '+'] then some .briInc
  else if w = ['B', 'R', 'I', '-'] then some .briDec
  else if w = ['C', 'F', 'G', 'P', 'U', 'S', 'H'] then some .cfgPush
  else (hexByte w).map .byte

/-- `GOTO r, col` with `r ∈ {0,1}` and `col ∈ 0..15` (30_encoding.md R87). -/
def gotoItem (r col : Token) : Option StreamItem :=
  match operandByte r, operandByte col with
  | some r, some col =>
    if r.toNat < 2 ∧ col.toNat < 16 then some (.goto (r.setWidth 1) (col.setWidth 4)) else none
  | _, _ => none

/-- The items of a stream. -/
def streamItems : List Token → Option (List StreamItem)
  | [] => some []
  | .quoted b :: ts => (streamItems ts).map (.byte b :: ·)
  | .text bs :: ts => (streamItems ts).map (.text bs :: ·)
  | .plain ['G', 'O', 'T', 'O'] :: r :: col :: ts =>
    match gotoItem r col with
    | some i => (streamItems ts).map (i :: ·)
    | none => none
  | .plain w :: ts =>
    match namedItem w with
    | some i => (streamItems ts).map (i :: ·)
    | none => none

/-- The command words of a written feed stream (30_encoding.md R86). -/
def assembleStream (cfg : Config) (line : List Char) : Option (List CmdWord) :=
  match tokens (.plain []) line with
  | some ts => (streamItems ts).map (streamWords cfg)
  | none => none

end Sys2Proof.Machine
end

