-- ==== Sys2Proof/Safety.lean ====
section
/-! DEFINITION. What a good state is, and the views of a state the statements are written in. -/

namespace Sys2Proof.Machine

/-! ### What the Pixel Buffer shows -/

/-- The pixel `(x, y)` as the Pixel Buffer holds it: bit `7 − (x mod 8)` of byte `y*12 + x div 8` (20_memory.md R50, R51). -/
def State.pixel (s : State) (x y : Nat) : Bool :=
  (s.memRead .pb (y * 12 + x / 8)).getLsbD (7 - x % 8)

/-- The code has a glyph: `FONT_FIRST ≤ c ≤ FONT_LAST` (00_scope.md R12). -/
abbrev FontHas (cfg : Config) (c : Byte) : Prop :=
  0x20 ≤ c.toNat ∧ c.toNat ≤ cfg.fontLast.toNat

/-- `FONT(c)[r]`, the row byte at offset `(c − 0x20)*8 + r` of `FONTROM` (20_memory.md R54). -/
def fontByte (cfg : Config) (c : Byte) (r : Nat) : Byte :=
  cfg.font.getD ((c.toNat - 0x20) * 8 + r) 0#8

/-- Pixel column `p` of `FONT(c)[r]`: its bit `7 − p` (20_memory.md R54). -/
def fontBit (cfg : Config) (c : Byte) (r p : Nat) : Bool :=
  (fontByte cfg c r).getLsbD (7 - p)

/-- The pixel `(x, y)` lies in the cell `(row, column)` (20_memory.md R60). -/
abbrev InCell (row column x y : Nat) : Prop :=
  (column * 6 ≤ x ∧ x < column * 6 + 6) ∧ row * 8 ≤ y ∧ y < row * 8 + 8

/-- `PB = Render(SHADOW)`: every pixel is that of the glyph of its cell's code (45_redraw_init.md R162). -/
def State.Rendered (s : State) : Prop :=
  ∀ x y, x < 96 → y < 16 →
    s.pixel x y = fontBit s.cfg (s.memRead .shadow (y / 8 * 16 + x / 6)) (y % 8) (x % 6)

/-! ### The invariant -/

/-- Every `SHADOW` cell holds an in-font code (10_state.md R32). -/
def State.shadowInFont (s : State) : Prop :=
  ∀ a, a < 32 → inFont s.cfg (s.memRead .shadow a) = true

/-- Both writable memories are in canonical form. -/
def State.memoryWf (s : State) : Prop :=
  Memory.wf (unlisted s.cfg .pb) 192 s.pb = true ∧ Memory.wf (unlisted s.cfg .shadow) 32 s.shadow = true

/-- `FAULT` bits 7..3 are 0 (10_state.md R26, R30). -/
def State.faultReserved (s : State) : Prop :=
  s.fault &&& 0xF8#8 = 0#8

/-- The invariant of the block: canonical memories, in-font `SHADOW` codes, and the reserved `FAULT` bits zero. -/
def State.Inv (s : State) : Prop :=
  s.memoryWf ∧ s.shadowInFont ∧ s.faultReserved

/-! ### The cursor and the interpreter -/

/-- `idx = CROW*16 + CCOL` (43_cursor.md R120). -/
def State.cursorIndex (s : State) : Nat :=
  s.crow.toNat * 16 + s.ccol.toNat

/-- The tests of the feed decode function in the order the spec lists them (30_encoding.md R80). -/
def feedClassListed (cfg : Config) (ist : Ist) (c : Byte) : FeedClass :=
  match ist with
  | .idle =>
    if c = cfg.codeHome then .home
    else if c = cfg.codeCls then .cls
    else if c = 0x1B#8 then .escape
    else if c = 0x0D#8 then .cr
    else if c = 0x0A#8 then .lf
    else .glyph
  | .afterEsc => if c = 0x3D#8 then .rowcol else if c = 0x21#8 then .cfg else if c = 0x54#8 then .eol else .discard
  | .awaitRow => .row
  | .awaitCol => .col
  | .awaitCfg =>
    if c = 0x43#8 then .cinc
    else if c = 0x63#8 then .cdec
    else if c = 0x42#8 then .binc
    else if c = 0x62#8 then .bdec
    else .cnop

/-! ### Who raises a status (60_exceptions.md R176) -/

/-- The instruction raises `GLYPH_RANGE`: a code outside the font, fed as a byte of class GLYPH or given to a RENDER_GLYPH
that is not clipped (60_exceptions.md R176, 44_interpreter.md R152, 42_rasterizer.md R106). -/
def RaisesGlyphRange (i : Instr) (s : State) : Prop :=
  ∃ c : Byte, ¬ FontHas s.cfg c ∧
    (i = .idleGlyph c ∨ (i = .feed c ∧ feedClass s.cfg s.ist c = .glyph) ∨
      ∃ row column : Byte, row.toNat < 2 ∧ column.toNat < 16 ∧ i = .renderGlyph c row column)

/-- The instruction raises `COL_CLAMPED`: a column byte outside 0x20..0x2F (60_exceptions.md R176, R178). -/
def RaisesColClamped (i : Instr) (s : State) : Prop :=
  ∃ c : Byte, (c.toNat < 0x20 ∨ 0x2F < c.toNat) ∧ (i = .acol c ∨ (i = .feed c ∧ s.ist = .awaitCol))

/-- The instruction raises `RESERVED`: a reserved operation code, or INSPECT of an unlisted selector (60_exceptions.md R176,
R179). -/
def RaisesReserved (i : Instr) : Prop :=
  (∃ op, i = .reserved op) ∨
    ∃ sel : Byte, ((0x05 < sel.toNat ∧ sel.toNat < 0x40) ∨ 0x5F < sel.toNat) ∧ i = .inspect sel

/-! ### What can be seen -/

/-- The bits of a command word the operation with code `op` reads (30_encoding.md R72). -/
def usedBits (op : BitVec 4) : CmdWord :=
  match op.toNat with
  | 0 => 0xF00000FF#32
  | 2 => 0xF100FFFF#32
  | 3 => 0xF000FFFF#32
  | 4 => 0xF0FFFFFF#32
  | 6 => 0xF00000FF#32
  | 7 => 0xF00000FF#32
  | _ => 0xF0000000#32

/-- Two states no operation tells apart: the same parameters but for `PB_RESET`, the same registers, outputs and input,
and the same bytes in both writable memories (70_reset_and_hazards.md R197, 45_redraw_init.md R165). -/
def SameView (s t : State) : Prop :=
  s.cfg.codeHome = t.cfg.codeHome ∧ s.cfg.codeCls = t.cfg.codeCls ∧ s.cfg.fontLast = t.cfg.fontLast ∧
  s.cfg.font = t.cfg.font ∧ s.ist = t.ist ∧ s.crow = t.crow ∧ s.ccol = t.ccol ∧ s.contrast = t.contrast ∧
  s.brightness = t.brightness ∧ s.fault = t.fault ∧ s.ev = t.ev ∧ s.result = t.result ∧ s.pending = t.pending ∧
  (∀ a, a < 192 → s.memRead .pb a = t.memRead .pb a) ∧ ∀ a, a < 32 → s.memRead .shadow a = t.memRead .shadow a

end Sys2Proof.Machine
end

