-- ==== Sys2Proof/Certificates/Slice0/Obligations.lean ====
section
/-! DEFINITION. The statements for the provers. A next state is written as the old one with the fields named that may
differ, so each statement about an instruction says its frame; where a memory may differ, it says byte by byte or pixel by
pixel what it holds. `some 0x0000#16` is the result word of status `OK` with DATA 0 (30_encoding.md R75). -/

open Sys2Proof Sys2Proof.Machine

/-! ### Encoding -/

/-- Command words and feed keys written out from the tables of 30_encoding.md decode to what they stand for
(95_test_vectors.md section 3.1). -/
def Obligations.WrittenWordsDecode : Prop :=
  decodeWord 0x0000001B#32 = .feed 0x1B#8 ∧
  decodeWord 0x0E000041#32 = .feed 0x41#8 ∧
  decodeWord 0x10000000#32 = .init ∧
  decodeWord 0x21000107#32 = .setPixel 7#8 1#8 true ∧
  decodeWord 0x20000107#32 = .setPixel 7#8 1#8 false ∧
  decodeWord 0x30000F5F#32 = .getPixel 95#8 15#8 ∧
  decodeWord 0x40030141#32 = .renderGlyph 0x41#8 1#8 3#8 ∧
  decodeWord 0x5FFFFFFF#32 = .redraw ∧
  decodeWord 0x600000BF#32 = .readByte 191#8 ∧
  decodeWord 0x70000040#32 = .inspect 0x40#8 ∧
  decodeWord 0x90000000#32 = .reserved 9#4 ∧
  ∀ cfg, decodeKey cfg 0x01B#11 = .ok .idleEsc ∧ decodeKey cfg 0x154#11 = .ok .aescEol ∧
    decodeKey cfg 0x2FF#11 = .ok (.arow 0xFF#8) ∧ decodeKey cfg 0x325#11 = .ok (.acol 0x25#8) ∧
    decodeKey cfg 0x463#11 = .ok .cdec

/-- Decoding the encoding of a well-formed instruction gives it back, under every configuration. -/
def Obligations.DecodeOfEncodeIsTheInstruction : Prop :=
  ∀ (cfg : Config) (i : Instr), i.wf cfg = true → decode cfg (encode cfg i) = .ok i

/-- Every command word decodes to a well-formed instruction; two words that agree on the bits their operation reads
decode alike, whatever the other bits are (30_encoding.md section 1, "a field that an operation does not use is
ignored"). -/
def Obligations.UnusedBitsAreIgnored : Prop :=
  (∀ (cfg : Config) (w : CmdWord), (decodeWord w).wf cfg = true) ∧
  ∀ w w' : CmdWord, w &&& usedBits (w.extractLsb' 28 4) = w' &&& usedBits (w.extractLsb' 28 4) → decodeWord w = decodeWord w'

/-- A feed key is rejected, by name, exactly where its `IST` field is 5, 6 or 7; every other key is a well-formed feed
step. The rejection is the model's choice, log entry 9; the spec's sentence is "Values 5, 6 and 7 are never held"
(10_state.md section 1, 30_encoding.md section 4). -/
def Obligations.FeedKeysRejectedByInterpreterState : Prop :=
  ∀ (cfg : Config) (k : FeedKey),
    (5 ≤ (k.extractLsb' 8 3).toNat → decodeKey cfg k = .error (.noSuchInterpreterState (k.extractLsb' 8 3))) ∧
    ((k.extractLsb' 8 3).toNat < 5 → ∃ i, decodeKey cfg k = .ok i ∧ i.wf cfg = true)

/-- The feed decode function is the one the spec lists, its tests in the spec's order (30_encoding.md R80). -/
def Obligations.FeedDecodeFollowsTheListedTests : Prop :=
  ∀ (cfg : Config) (ist : Ist) (c : Byte), feedClass cfg ist c = feedClassListed cfg ist c

/-! ### The step -/

/-- Where the host's next command word decodes to `i`, the step is `exec i`, the word being taken from the host's stream;
where the host issues none, the step changes nothing (the model's choice, log entry 5). -/
def Obligations.StepRunsTheDecodedInstruction : Prop :=
  (∀ (s : State) (w : CmdWord) (rest : List CmdWord), s.pending = w :: rest →
    step s = exec (decodeWord w) { s with pending := rest }) ∧
  ∀ s : State, s.pending = [] → step s = .next s

/-- No step stops the machine: every command word, in every state, has a next state. That a step without a command word
has one too is the model's choice, log entry 5 (60_exceptions.md section 1, "control never leaves the operation"). -/
def Obligations.EveryStepHasANextState : Prop :=
  ∀ s : State, ∃ t, step s = .next t

/-! ### The Pixel Buffer -/

/-- SET_PIXEL: a pixel outside the buffer is a silent no-op; inside, one byte is read, changed by the mask and written
back (41_pixel_buffer.md R96). -/
def Obligations.SetPixelWritesItsBit : Prop :=
  (∀ w : CmdWord, w.extractLsb' 28 4 = 0x2#4 →
    decodeWord w = .setPixel (w.extractLsb' 0 8) (w.extractLsb' 8 8) (w.getLsbD 24)) ∧
  ∀ (x y : Byte) (on : Bool) (s : State),
    (96 ≤ x.toNat ∨ 16 ≤ y.toNat → exec (.setPixel x y on) s = .next { s with result := some 0x0000#16 }) ∧
    (x.toNat < 96 → y.toNat < 16 → ∃ t, exec (.setPixel x y on) s = .next t ∧
      t = { s with pb := t.pb, result := some 0x0000#16 } ∧
      ∀ a, t.memRead .pb a =
        if a = y.toNat * 12 + x.toNat / 8 then
          if on then s.memRead .pb a ||| (0x80#8 >>> (x.toNat % 8)) else s.memRead .pb a &&& ~~~(0x80#8 >>> (x.toNat % 8))
        else s.memRead .pb a)

/-- The last of two writes to one pixel wins, and writes to different pixels commute: in a state with canonical memories
the two orders leave the same state (41_pixel_buffer.md, the laws of `setPixel`). -/
def Obligations.SetPixelLastWinsAndCommutes : Prop :=
  ∀ (s : State), s.memoryWf → ∀ (x y x' y' : Byte) (on on' : Bool),
    ∃ t u v, exec (.setPixel x y on) s = .next t ∧ exec (.setPixel x' y' on') t = .next u ∧
      exec (.setPixel x' y' on') s = .next v ∧
      (x = x' → y = y' → u = v) ∧
      (x ≠ x' ∨ y ≠ y' → exec (.setPixel x y on) v = .next u)

/-- GET_PIXEL: DATA is the pixel, or 0 outside the buffer, and nothing else changes (41_pixel_buffer.md R98). -/
def Obligations.GetPixelReturnsThePixel : Prop :=
  (∀ w : CmdWord, w.extractLsb' 28 4 = 0x3#4 → decodeWord w = .getPixel (w.extractLsb' 0 8) (w.extractLsb' 8 8)) ∧
  ∀ (x y : Byte) (s : State), exec (.getPixel x y) s =
    if x.toNat < 96 ∧ y.toNat < 16 ∧ s.memRead .pb (y.toNat * 12 + x.toNat / 8) &&& (0x80#8 >>> (x.toNat % 8)) ≠ 0#8 then
      .next { s with result := some 0x0001#16 }
    else .next { s with result := some 0x0000#16 }

/-- A pixel just set reads as it was set, and every other pixel reads as before (41_pixel_buffer.md, the law of
GET_PIXEL). -/
def Obligations.GetPixelAfterSetPixel : Prop :=
  ∀ (x y : Byte) (on : Bool) (s : State), x.toNat < 96 → y.toNat < 16 →
    ∃ t, exec (.setPixel x y on) s = .next t ∧
      exec (.getPixel x y) t = .next { t with result := some (if on then 0x0001#16 else 0x0000#16) } ∧
      ∀ x' y' : Byte, x' ≠ x ∨ y' ≠ y → ∃ u v, exec (.getPixel x' y') s = .next u ∧ exec (.getPixel x' y') t = .next v ∧
        u.result = v.result

/-- READ_BYTE: DATA is the byte of `PB`, or 0 from address 192 on, and nothing else changes (41_pixel_buffer.md R100). -/
def Obligations.ReadByteReturnsTheByte : Prop :=
  (∀ w : CmdWord, w.extractLsb' 28 4 = 0x6#4 → decodeWord w = .readByte (w.extractLsb' 0 8)) ∧
  ∀ (addr : Byte) (s : State), exec (.readByte addr) s =
    if 192 ≤ addr.toNat then .next { s with result := some 0x0000#16 }
    else .next { s with result := some ((s.memRead .pb addr.toNat).setWidth 16) }

/-! ### The rasterizer -/

/-- RENDER_GLYPH: a clipped cell is a silent no-op; otherwise a code outside the font raises `GLYPH_RANGE`, and a code in
the font writes all 48 pixels of its cell and no other (42_rasterizer.md R106). -/
def Obligations.RenderGlyphDrawsItsCell : Prop :=
  (∀ w : CmdWord, w.extractLsb' 28 4 = 0x4#4 →
    decodeWord w = .renderGlyph (w.extractLsb' 0 8) (w.extractLsb' 8 8) (w.extractLsb' 16 8)) ∧
  ∀ (c row column : Byte) (s : State),
    (2 ≤ row.toNat ∨ 16 ≤ column.toNat →
      exec (.renderGlyph c row column) s = .next { s with result := some 0x0000#16 }) ∧
    (row.toNat < 2 → column.toNat < 16 → ¬ FontHas s.cfg c →
      exec (.renderGlyph c row column) s = .next { s with fault := s.fault ||| 0x01#8, result := some 0x0200#16 }) ∧
    (row.toNat < 2 → column.toNat < 16 → FontHas s.cfg c → ∃ t, exec (.renderGlyph c row column) s = .next t ∧
      t = { s with pb := t.pb, result := some 0x0000#16 } ∧
      (∀ x y, x < 96 → y < 16 →
        (InCell row.toNat column.toNat x y →
          t.pixel x y = fontBit s.cfg c (y - row.toNat * 8) (x - column.toNat * 6)) ∧
        (¬ InCell row.toNat column.toNat x y → t.pixel x y = s.pixel x y)) ∧
      ∀ a, 192 ≤ a → t.memRead .pb a = s.memRead .pb a)

/-- The bytes a drawn glyph leaves in each pixel row of its cell, by the column modulo 4 (42_rasterizer.md, the byte-level
form; 20_memory.md, the cell-to-pixel map). -/
def Obligations.RenderGlyphByteByByte : Prop :=
  ∀ (c row column : Byte) (s : State), row.toNat < 2 → column.toNat < 16 → FontHas s.cfg c →
    ∃ t, exec (.renderGlyph c row column) s = .next t ∧
      ∀ r, r < 8 → ∀ base, base = 12 * (row.toNat * 8 + r) + 3 * (column.toNat / 4) →
        (column.toNat % 4 = 0 →
          t.memRead .pb base = (fontByte s.cfg c r &&& 0xFC#8) ||| (s.memRead .pb base &&& 0x03#8)) ∧
        (column.toNat % 4 = 1 →
          t.memRead .pb base = ((fontByte s.cfg c r >>> 6) &&& 0x03#8) ||| (s.memRead .pb base &&& 0xFC#8) ∧
          t.memRead .pb (base + 1) = ((fontByte s.cfg c r <<< 2) &&& 0xF0#8) ||| (s.memRead .pb (base + 1) &&& 0x0F#8)) ∧
        (column.toNat % 4 = 2 →
          t.memRead .pb (base + 1) = ((fontByte s.cfg c r >>> 4) &&& 0x0F#8) ||| (s.memRead .pb (base + 1) &&& 0xF0#8) ∧
          t.memRead .pb (base + 2) = ((fontByte s.cfg c r <<< 4) &&& 0xC0#8) ||| (s.memRead .pb (base + 2) &&& 0x3F#8)) ∧
        (column.toNat % 4 = 3 →
          t.memRead .pb (base + 2) = ((fontByte s.cfg c r >>> 2) &&& 0x3F#8) ||| (s.memRead .pb (base + 2) &&& 0xC0#8))

/-- Rendering a character twice at one cell leaves the state of rendering it once, and renders at different cells commute:
in a state with canonical memories (42_rasterizer.md, the laws of `renderGlyph`). -/
def Obligations.RenderGlyphIdempotentAndCommutes : Prop :=
  ∀ (s : State), s.memoryWf → ∀ (c row column c' row' column' : Byte), row.toNat < 2 → column.toNat < 16 →
    FontHas s.cfg c → row'.toNat < 2 → column'.toNat < 16 → FontHas s.cfg c' →
    ∃ t u v, exec (.renderGlyph c row column) s = .next t ∧ exec (.renderGlyph c row column) t = .next t ∧
      exec (.renderGlyph c' row' column') t = .next u ∧ exec (.renderGlyph c' row' column') s = .next v ∧
      (row ≠ row' ∨ column ≠ column' → exec (.renderGlyph c row column) v = .next u)

/-- Rendering a space clears all 48 pixels of its cell (42_rasterizer.md, "the space glyph renders blank"). -/
def Obligations.SpaceRendersBlank : Prop :=
  ∀ (row column : Byte) (s : State), row.toNat < 2 → column.toNat < 16 →
    ∃ t, exec (.renderGlyph 0x20#8 row column) s = .next t ∧
      ∀ x y, InCell row.toNat column.toNat x y → t.pixel x y = false

/-! ### The cursor -/

/-- HOME: the cursor goes to `(0, 0)` and nothing else changes; in IDLE, `CODE_HOME` is that step (44_interpreter.md R127,
43_cursor.md R115). -/
def Obligations.HomeSendsTheCursorHome : Prop :=
  (∀ cfg : Config, decodeKey cfg (0x000#11 ||| cfg.codeHome.setWidth 11) = .ok .idleHome) ∧
  ∀ s : State,
    exec .idleHome s = .next { s with crow := 0#1, ccol := 0#4, result := some 0x0000#16 } ∧
    (s.ist = .idle → exec (.feed s.cfg.codeHome) s = exec .idleHome s)

/-- CR and LF: CR sets the column to 0 and leaves the row, LF toggles the row and leaves the column; nothing else changes;
in IDLE, the bytes 0x0D and 0x0A are those steps (44_interpreter.md R130, R131, 43_cursor.md R116, R117). -/
def Obligations.CrAndLfMoveTheCursor : Prop :=
  (∀ cfg : Config, decodeKey cfg 0x00D#11 = .ok .idleCr ∧ decodeKey cfg 0x00A#11 = .ok .idleLf) ∧
  ∀ s : State,
    exec .idleCr s = .next { s with ccol := 0#4, result := some 0x0000#16 } ∧
    exec .idleLf s = .next { s with crow := BitVec.ofNat 1 ((s.crow.toNat + 1) % 2), result := some 0x0000#16 } ∧
    (s.ist = .idle → exec (.feed 0x0D#8) s = exec .idleCr s ∧ exec (.feed 0x0A#8) s = exec .idleLf s)

/-- `advanceAfterGlyph` as the spec writes it: the column wraps at 16, from row 0 to row 1, from row 1 home
(43_cursor.md R118). -/
def Obligations.AdvanceWrapsAtTheRowEnds : Prop :=
  ∀ s : State,
    (s.ccol.toNat = 15 → s.crow.toNat = 1 → s.advanceAfterGlyph = { s with crow := 0#1, ccol := 0#4 }) ∧
    (s.ccol.toNat = 15 → s.crow.toNat = 0 → s.advanceAfterGlyph = { s with crow := 1#1, ccol := 0#4 }) ∧
    (s.ccol.toNat < 15 → s.advanceAfterGlyph = { s with ccol := BitVec.ofNat 4 (s.ccol.toNat + 1) })

/-- `advanceAfterGlyph` adds one to the cursor index modulo 32; 32 of them visit every cell and return
(43_cursor.md, the cursor order). -/
def Obligations.AdvanceVisitsEveryCell : Prop :=
  ∀ s : State,
    (∀ n, (State.advanceAfterGlyph^[n] s).cursorIndex = (s.cursorIndex + n) % 32) ∧ State.advanceAfterGlyph^[32] s = s

/-! ### The interpreter -/

/-- FEED performs the rule of the class of its byte; it returns status OK unless class GLYPH or class COL raises, and it
always completes (44_interpreter.md R125). -/
def Obligations.FeedPerformsTheRuleOfItsClass : Prop :=
  (∀ w : CmdWord, w.extractLsb' 28 4 = 0x0#4 → decodeWord w = .feed (w.extractLsb' 0 8)) ∧
  ∀ (c : Byte) (s : State), ∃ t, exec (.feed c) s = .next t ∧
    exec ((feedClass s.cfg s.ist c).instr c) s = .next t ∧
    (feedClass s.cfg s.ist c ≠ .glyph → feedClass s.cfg s.ist c ≠ .col → t.result = some 0x0000#16 ∧ t.fault = s.fault)

/-- The interpreter state after a FEED, from the state before it and the byte (44_interpreter.md R126 and the class
rules). -/
def Obligations.FeedNextInterpreterState : Prop :=
  ∀ (c : Byte) (s : State), ∃ t, exec (.feed c) s = .next t ∧
    t.ist =
      match s.ist with
      | .idle => if c = 0x1B#8 then .afterEsc else .idle
      | .afterEsc => if c = 0x3D#8 then .awaitRow else if c = 0x21#8 then .awaitCfg else .idle
      | .awaitRow => .awaitCol
      | .awaitCol => .idle
      | .awaitCfg => .idle

/-- ESC in IDLE, and `'='`, `'!'` and every discarded byte after it, change `IST` alone (44_interpreter.md R129, R133, R134,
R136). -/
def Obligations.EscapeBytesChangeOnlyTheInterpreterState : Prop :=
  (∀ cfg : Config, decodeKey cfg 0x01B#11 = .ok .idleEsc ∧ decodeKey cfg 0x13D#11 = .ok .aescRowcol ∧
    decodeKey cfg 0x121#11 = .ok .aescCfg ∧
    ∀ c : Byte, c ≠ 0x3D#8 → c ≠ 0x21#8 → c ≠ 0x54#8 → decodeKey cfg (0x100#11 ||| c.setWidth 11) = .ok (.aescDiscard c)) ∧
  ∀ s : State,
    exec .idleEsc s = .next { s with ist := .afterEsc, result := some 0x0000#16 } ∧
    exec .aescRowcol s = .next { s with ist := .awaitRow, result := some 0x0000#16 } ∧
    exec .aescCfg s = .next { s with ist := .awaitCfg, result := some 0x0000#16 } ∧
    (∀ c : Byte, exec (.aescDiscard c) s = .next { s with ist := .idle, result := some 0x0000#16 }) ∧
    (s.ist = .idle → exec (.feed 0x1B#8) s = exec .idleEsc s) ∧
    (s.ist = .afterEsc → exec (.feed 0x3D#8) s = exec .aescRowcol s ∧ exec (.feed 0x21#8) s = exec .aescCfg s ∧
      ∀ c : Byte, c ≠ 0x3D#8 → c ≠ 0x21#8 → c ≠ 0x54#8 → exec (.feed c) s = exec (.aescDiscard c) s)

/-- ESC and then a byte other than `'='`, `'!'` and `'T'` leave everything as it was, `IST` being IDLE again
(44_interpreter.md, the escape discard law). -/
def Obligations.EscapeDiscardLeavesNoTrace : Prop :=
  ∀ (c : Byte) (s : State), s.ist = .idle → c ≠ 0x3D#8 → c ≠ 0x21#8 → c ≠ 0x54#8 →
    ∃ t, exec (.feed 0x1B#8) s = .next t ∧ exec (.feed c) t = .next { s with result := some 0x0000#16 }

/-- In AWAIT_ROW, AWAIT_COL and AWAIT_CFG every byte is a parameter, the control codes among them: none has its Idle
effect (44_interpreter.md, "parameter bytes are data"). -/
def Obligations.ParameterBytesAreData : Prop :=
  ∀ (c : Byte) (s : State),
    (s.ist = .awaitRow → exec (.feed c) s = exec (.arow c) s) ∧
    (s.ist = .awaitCol → exec (.feed c) s = exec (.acol c) s) ∧
    (s.ist = .awaitCfg → ∃ t, exec (.feed c) s = .next t ∧ t.ist = .idle ∧ t.crow = s.crow ∧ t.ccol = s.ccol ∧
      t.shadow = s.shadow ∧ t.pb = s.pb ∧ t.fault = s.fault)

/-- IDLE_GLYPH: a code in the font is written to the cell at the cursor, drawn there, and the cursor advances; a code
outside the font raises `GLYPH_RANGE` and changes nothing else; in IDLE every byte but the five control codes is that step
(44_interpreter.md R132, R152). -/
def Obligations.GlyphByteIsDisplayed : Prop :=
  ∀ (c : Byte) (s : State),
    (FontHas s.cfg c → ∃ t, exec (.idleGlyph c) s = .next t ∧
      t = { s with crow := t.crow, ccol := t.ccol, shadow := t.shadow, pb := t.pb, result := some 0x0000#16 } ∧
      t.crow = s.advanceAfterGlyph.crow ∧ t.ccol = s.advanceAfterGlyph.ccol ∧
      (∀ a, t.memRead .shadow a = if a = s.crow.toNat * 16 + s.ccol.toNat then c else s.memRead .shadow a) ∧
      (∀ x y, x < 96 → y < 16 →
        (InCell s.crow.toNat s.ccol.toNat x y →
          t.pixel x y = fontBit s.cfg c (y - s.crow.toNat * 8) (x - s.ccol.toNat * 6)) ∧
        (¬ InCell s.crow.toNat s.ccol.toNat x y → t.pixel x y = s.pixel x y)) ∧
      ∀ a, 192 ≤ a → t.memRead .pb a = s.memRead .pb a) ∧
    (¬ FontHas s.cfg c →
      exec (.idleGlyph c) s = .next { s with fault := s.fault ||| 0x01#8, result := some 0x0200#16 }) ∧
    (s.ist = .idle → c ≠ s.cfg.codeHome → c ≠ s.cfg.codeCls → c ≠ 0x1B#8 → c ≠ 0x0D#8 → c ≠ 0x0A#8 →
      exec (.feed c) s = exec (.idleGlyph c) s)

/-- ESC 'T': the cells from the cursor to the end of its row become spaces and are blank; no other cell, no register but
`IST`, no event and no bit of `FAULT` changes (44_interpreter.md R135 and the net effect of `clearToEndOfLine`). -/
def Obligations.ClearToEndOfLineBlanksTheRest : Prop :=
  (∀ cfg : Config, decodeKey cfg 0x154#11 = .ok .aescEol) ∧
  ∀ s : State,
    (∃ t, exec .aescEol s = .next t ∧
      t = { s with ist := .idle, shadow := t.shadow, pb := t.pb, result := some 0x0000#16 } ∧
      (∀ a, t.memRead .shadow a =
        if s.crow.toNat * 16 + s.ccol.toNat ≤ a ∧ a < s.crow.toNat * 16 + 16 then 0x20#8 else s.memRead .shadow a) ∧
      (∀ x y, x < 96 → y < 16 → t.pixel x y =
        if s.ccol.toNat * 6 ≤ x ∧ s.crow.toNat * 8 ≤ y ∧ y < s.crow.toNat * 8 + 8 then false else s.pixel x y) ∧
      ∀ a, 192 ≤ a → t.memRead .pb a = s.memRead .pb a) ∧
    (s.ist = .afterEsc → exec (.feed 0x54#8) s = exec .aescEol s)

/-- AWAIT_ROW: the row is the low bit of the byte, whatever the byte, and is written at once (44_interpreter.md R139). -/
def Obligations.RowByteSetsTheRow : Prop :=
  (∀ (cfg : Config) (c : Byte), decodeKey cfg (0x200#11 ||| c.setWidth 11) = .ok (.arow c)) ∧
  ∀ (c : Byte) (s : State),
    exec (.arow c) s =
      .next { s with crow := BitVec.ofNat 1 (c.toNat % 2), ist := .awaitCol, result := some 0x0000#16 } ∧
    (s.ist = .awaitRow → exec (.feed c) s = exec (.arow c) s)

/-- AWAIT_COL: a byte 0x20..0x2F gives its column; every other byte gives column 15 and the warning `COL_CLAMPED`; the
transition completes in both cases (44_interpreter.md R141). -/
def Obligations.ColumnByteSetsTheColumnClamped : Prop :=
  (∀ (cfg : Config) (c : Byte), decodeKey cfg (0x300#11 ||| c.setWidth 11) = .ok (.acol c)) ∧
  ∀ (c : Byte) (s : State),
    (0x20 ≤ c.toNat → c.toNat ≤ 0x2F → exec (.acol c) s =
      .next { s with ccol := BitVec.ofNat 4 (c.toNat - 0x20), ist := .idle, result := some 0x0000#16 }) ∧
    (c.toNat < 0x20 ∨ 0x2F < c.toNat → exec (.acol c) s =
      .next { s with ccol := 15#4, ist := .idle, fault := s.fault ||| 0x02#8, result := some 0x0100#16 }) ∧
    (s.ist = .awaitCol → exec (.feed c) s = exec (.acol c) s)

/-- CINC and CDEC: the contrast changes by one modulo 256, one `CONFIG_PUSH` of the values after it is emitted, and `IST`
is IDLE (44_interpreter.md R144, R145). -/
def Obligations.ContrastBytesStepTheContrast : Prop :=
  (∀ cfg : Config, decodeKey cfg 0x443#11 = .ok .cinc ∧ decodeKey cfg 0x463#11 = .ok .cdec) ∧
  ∀ s : State,
    (∃ v : Byte, v.toNat = (s.contrast.toNat + 1) % 256 ∧ exec .cinc s =
      .next { s with contrast := v, ist := .idle, ev := s.ev ++ [.configPush v s.brightness], result := some 0x0000#16 }) ∧
    (∃ v : Byte, v.toNat = (s.contrast.toNat + 255) % 256 ∧ exec .cdec s =
      .next { s with contrast := v, ist := .idle, ev := s.ev ++ [.configPush v s.brightness], result := some 0x0000#16 }) ∧
    (s.ist = .awaitCfg → exec (.feed 0x43#8) s = exec .cinc s ∧ exec (.feed 0x63#8) s = exec .cdec s)

/-- BINC and BDEC: the brightness changes by one modulo 256, one `CONFIG_PUSH` of the values after it is emitted, and `IST`
is IDLE (44_interpreter.md R146, R147). -/
def Obligations.BrightnessBytesStepTheBrightness : Prop :=
  (∀ cfg : Config, decodeKey cfg 0x442#11 = .ok .binc ∧ decodeKey cfg 0x462#11 = .ok .bdec) ∧
  ∀ s : State,
    (∃ v : Byte, v.toNat = (s.brightness.toNat + 1) % 256 ∧ exec .binc s =
      .next { s with brightness := v, ist := .idle, ev := s.ev ++ [.configPush s.contrast v], result := some 0x0000#16 }) ∧
    (∃ v : Byte, v.toNat = (s.brightness.toNat + 255) % 256 ∧ exec .bdec s =
      .next { s with brightness := v, ist := .idle, ev := s.ev ++ [.configPush s.contrast v], result := some 0x0000#16 }) ∧
    (s.ist = .awaitCfg → exec (.feed 0x42#8) s = exec .binc s ∧ exec (.feed 0x62#8) s = exec .bdec s)

/-- CNOP: every other configuration byte changes no register but `IST`, yet emits one `CONFIG_PUSH`
(44_interpreter.md R148). -/
def Obligations.OtherConfigBytesOnlyPush : Prop :=
  ∀ (c : Byte) (s : State),
    exec (.cnop c) s =
      .next { s with ist := .idle, ev := s.ev ++ [.configPush s.contrast s.brightness], result := some 0x0000#16 } ∧
    (c ≠ 0x43#8 → c ≠ 0x63#8 → c ≠ 0x42#8 → c ≠ 0x62#8 →
      (∀ cfg : Config, decodeKey cfg (0x400#11 ||| c.setWidth 11) = .ok (.cnop c)) ∧
      (s.ist = .awaitCfg → exec (.feed c) s = exec (.cnop c) s))

/-- Each pseudo-sequence stands for the bytes of its row of the table, one FEED word a byte (30_encoding.md R87). -/
def Obligations.PseudoSequencesExpandToTheirBytes : Prop :=
  (∀ (cfg : Config) (item : StreamItem), (streamWords cfg [item]).map decodeWord = (item.bytes cfg).map .feed) ∧
  ∀ cfg : Config,
    (∀ (r : BitVec 1) (col : BitVec 4), ∃ a b : Byte, a.toNat = r.toNat ∧ b.toNat = 0x20 + col.toNat ∧
      (StreamItem.goto r col).bytes cfg = [0x1B#8, 0x3D#8, a, b]) ∧
    StreamItem.eol.bytes cfg = [0x1B#8, 0x54#8] ∧
    StreamItem.conInc.bytes cfg = [0x1B#8, 0x21#8, 0x43#8] ∧ StreamItem.conDec.bytes cfg = [0x1B#8, 0x21#8, 0x63#8] ∧
    StreamItem.briInc.bytes cfg = [0x1B#8, 0x21#8, 0x42#8] ∧ StreamItem.briDec.bytes cfg = [0x1B#8, 0x21#8, 0x62#8] ∧
    StreamItem.cfgPush.bytes cfg = [0x1B#8, 0x21#8, 0x00#8]

/-- The pseudo-sequence `GOTO r, col`, issued in IDLE, is four steps that set the cursor and change nothing else
(30_encoding.md section 5, the effect rules of the table of pseudo-sequences). -/
def Obligations.GotoSequenceSetsTheCursor : Prop :=
  ∀ (r : BitVec 1) (col : BitVec 4) (rest : List CmdWord) (s : State), s.ist = .idle →
    s.pending = streamWords s.cfg [.goto r col] ++ rest →
    core.run 4 s = .next { s with crow := r, ccol := col, pending := rest, result := some 0x0000#16 }

/-! ### Redraw, clear, INIT, INSPECT, reserved codes -/

/-- REDRAW over in-font codes renders `SHADOW` into `PB` and changes nothing else, `IST` and the cursor included
(45_redraw_init.md R160 and its net effect). -/
def Obligations.RedrawRendersTheShadowBuffer : Prop :=
  (∀ w : CmdWord, w.extractLsb' 28 4 = 0x5#4 → decodeWord w = .redraw) ∧
  ∀ s : State, s.shadowInFont → ∃ t, exec .redraw s = .next t ∧
    t = { s with pb := t.pb, result := some 0x0000#16 } ∧ t.Rendered ∧
    ∀ a, 192 ≤ a → t.memRead .pb a = s.memRead .pb a

/-- INIT: IDLE, all spaces, all pixels 0, cursor home, one `DEVICE_INIT` of the values kept, nothing else changed
(45_redraw_init.md R166 and the net effect of `fullClear`). -/
def Obligations.InitClearsTheBlock : Prop :=
  (∀ w : CmdWord, w.extractLsb' 28 4 = 0x1#4 → decodeWord w = .init) ∧
  ∀ s : State, ∃ t, exec .init s = .next t ∧
    t = { s with ist := .idle, crow := 0#1, ccol := 0#4, shadow := t.shadow, pb := t.pb,
                 ev := s.ev ++ [.deviceInit s.contrast s.brightness], result := some 0x0000#16 } ∧
    (∀ a, t.memRead .shadow a = if a < 32 then 0x20#8 else s.memRead .shadow a) ∧
    ∀ a, t.memRead .pb a = if a < 192 then 0x00#8 else s.memRead .pb a

/-- CLS: the same clear, `IST` untouched; in IDLE, `CODE_CLS` is that step (44_interpreter.md R128 and the net effect of
`fullClear`). -/
def Obligations.ClsClearsTheScreen : Prop :=
  (∀ cfg : Config, decodeKey cfg (0x000#11 ||| cfg.codeCls.setWidth 11) = .ok .idleCls) ∧
  ∀ s : State,
    (∃ t, exec .idleCls s = .next t ∧
      t = { s with crow := 0#1, ccol := 0#4, shadow := t.shadow, pb := t.pb,
                   ev := s.ev ++ [.deviceInit s.contrast s.brightness], result := some 0x0000#16 } ∧
      (∀ a, t.memRead .shadow a = if a < 32 then 0x20#8 else s.memRead .shadow a) ∧
      ∀ a, t.memRead .pb a = if a < 192 then 0x00#8 else s.memRead .pb a) ∧
    (s.ist = .idle → exec (.feed s.cfg.codeCls) s = exec .idleCls s ∧ exec .idleCls s = exec .init s)

/-- INIT is idempotent: from canonical memories a second INIT leaves the state of the first but for one more event
(45_redraw_init.md, "INIT is idempotent"). -/
def Obligations.InitIsIdempotent : Prop :=
  ∀ s : State, s.memoryWf → ∃ t, exec .init s = .next t ∧
    exec .init t = .next { t with ev := t.ev ++ [.deviceInit s.contrast s.brightness] }

/-- INSPECT returns the register or `SHADOW` cell its selector lists and changes nothing else; any other selector raises
`RESERVED` (45_redraw_init.md R170). -/
def Obligations.InspectReturnsTheSelected : Prop :=
  (∀ w : CmdWord, w.extractLsb' 28 4 = 0x7#4 → decodeWord w = .inspect (w.extractLsb' 0 8)) ∧
  ∀ s : State,
    (∃ n, exec (.inspect 0x00#8) s = .next { s with result := some (BitVec.ofNat 16 n) } ∧
      n = match s.ist with | .idle => 0 | .afterEsc => 1 | .awaitRow => 2 | .awaitCol => 3 | .awaitCfg => 4) ∧
    exec (.inspect 0x01#8) s = .next { s with result := some (s.crow.setWidth 16) } ∧
    exec (.inspect 0x02#8) s = .next { s with result := some (s.ccol.setWidth 16) } ∧
    exec (.inspect 0x03#8) s = .next { s with result := some (s.contrast.setWidth 16) } ∧
    exec (.inspect 0x04#8) s = .next { s with result := some (s.brightness.setWidth 16) } ∧
    exec (.inspect 0x05#8) s = .next { s with result := some (s.fault.setWidth 16) } ∧
    (∀ sel : Byte, 0x40 ≤ sel.toNat → sel.toNat ≤ 0x5F → exec (.inspect sel) s =
      .next { s with result := some ((s.memRead .shadow (sel.toNat - 0x40)).setWidth 16) }) ∧
    (∀ sel : Byte, (0x05 < sel.toNat ∧ sel.toNat < 0x40) ∨ 0x5F < sel.toNat → exec (.inspect sel) s =
      .next { s with fault := s.fault ||| 0x04#8, result := some 0x0300#16 })

/-- A reserved operation code and an unlisted INSPECT selector change nothing but `FAULT[2]` and return status `RESERVED`
with DATA 0; a reserved code is what every command word with bit 31 set decodes to (60_exceptions.md R179). -/
def Obligations.ReservedCodesRaiseReserved : Prop :=
  (∀ w : CmdWord, w.getLsbD 31 = true → decodeWord w = .reserved (w.extractLsb' 28 4)) ∧
  (∀ (op : BitVec 4) (s : State),
    exec (.reserved op) s = .next { s with fault := s.fault ||| 0x04#8, result := some 0x0300#16 }) ∧
  ∀ (sel : Byte) (s : State), (0x05 < sel.toNat ∧ sel.toNat < 0x40) ∨ 0x5F < sel.toNat →
    exec (.inspect sel) s = .next { s with fault := s.fault ||| 0x04#8, result := some 0x0300#16 }

/-! ### Reset -/

/-- The values after reset (10_state.md R37); `PB` reads the open parameter `PB_RESET`, whatever it is (log entry 3). -/
def Obligations.ResetLeavesTheListedValues : Prop :=
  State.reset.ist = .idle ∧ State.reset.crow = 0#1 ∧ State.reset.ccol = 0#4 ∧ State.reset.contrast = 128#8 ∧
  State.reset.brightness = 128#8 ∧ State.reset.fault = 0#8 ∧
  (∀ a, a < 32 → State.reset.memRead .shadow a = 0x20#8) ∧
  (∀ a, a < 192 → State.reset.memRead .pb a = Config.machine.pbReset.getD a 0#8) ∧ State.reset.ev = []

/-- The state after reset and INIT, the post-init state (70_reset_and_hazards.md, "state after reset then INIT"). -/
def Obligations.ResetThenInitIsThePostInitState : Prop :=
  ∃ t, exec .init State.reset = .next t ∧ t.ist = .idle ∧ t.crow = 0#1 ∧ t.ccol = 0#4 ∧ t.contrast = 128#8 ∧
    t.brightness = 128#8 ∧ t.fault = 0#8 ∧ (∀ a, a < 32 → t.memRead .shadow a = 0x20#8) ∧
    (∀ a, a < 192 → t.memRead .pb a = 0x00#8) ∧ t.ev = [.deviceInit 128#8 128#8]

/-- The machine after reset meets the invariant; that its memories list nothing is the model's choice, log entry 10. -/
def Obligations.ResetMeetsTheInvariant : Prop :=
  State.reset.Inv

/-! ### Statuses, events and writers -/

/-- Every operation reports one status, in bits 11..8 of its result and in its bit of `FAULT`: each operation of the table of
statuses raises the status of its row, with the effect the row gives it, and every operation that meets no such row reports
`OK` and leaves `FAULT` as it was. Over states whose `SHADOW` codes are in the font (60_exceptions.md R176). -/
def Obligations.StatusesAreRaisedAsTabulated : Prop :=
  ∀ (i : Instr) (s : State), s.shadowInFont → ∃ t, exec i s = .next t ∧
    (RaisesColClamped i s →
      t = { s with ccol := 15#4, ist := .idle, fault := s.fault ||| 0x02#8, result := some 0x0100#16 }) ∧
    (RaisesGlyphRange i s → t = { s with fault := s.fault ||| 0x01#8, result := some 0x0200#16 }) ∧
    (RaisesReserved i → t = { s with fault := s.fault ||| 0x04#8, result := some 0x0300#16 }) ∧
    (¬ RaisesColClamped i s → ¬ RaisesGlyphRange i s → ¬ RaisesReserved i →
      ∃ data : Byte, t.result = some (data.setWidth 16) ∧ t.fault = s.fault ∧
        (data = 0#8 ∨ (∃ x y, i = .getPixel x y) ∨ (∃ addr, i = .readByte addr) ∨ ∃ sel, i = .inspect sel))

/-- No operation clears a bit of `FAULT`: "`FAULT` bits stay set until reset; no operation clears them" (60_exceptions.md
section 1, 10_state.md section 1). -/
def Obligations.FaultBitsAreSticky : Prop :=
  ∀ s t : State, step s = .next t → s.fault &&& t.fault = s.fault

/-- The events and who emits them: `DEVICE_INIT` by INIT and by `CODE_CLS` in IDLE, `CONFIG_PUSH` by every AWAIT_CFG
byte, with the values of the table, and none by any other operation (60_exceptions.md R186). -/
def Obligations.EventsAreEmittedAsTabulated : Prop :=
  ∀ (s : State) (w : CmdWord) (rest : List CmdWord), s.pending = w :: rest → ∃ t, step s = .next t ∧
    ((decodeWord w = .init ∨ (s.ist = .idle ∧ decodeWord w = .feed s.cfg.codeCls)) →
      t.ev = s.ev ++ [.deviceInit s.contrast s.brightness]) ∧
    ((s.ist = .awaitCfg ∧ ∃ c, decodeWord w = .feed c) → t.ev = s.ev ++ [.configPush t.contrast t.brightness]) ∧
    (¬ (decodeWord w = .init ∨ (s.ist = .idle ∧ decodeWord w = .feed s.cfg.codeCls)) →
      ¬ (s.ist = .awaitCfg ∧ ∃ c, decodeWord w = .feed c) → t.ev = s.ev)

/-- Contrast and brightness are "mutated only via the config-byte escape command" (10_state.md section 1). -/
def Obligations.OnlyConfigBytesChangeTheConfiguration : Prop :=
  ∀ s t : State, step s = .next t → (t.contrast ≠ s.contrast ∨ t.brightness ≠ s.brightness) →
    s.ist = .awaitCfg ∧ ∃ (w : CmdWord) (rest : List CmdWord) (c : Byte), s.pending = w :: rest ∧ decodeWord w = .feed c

/-- Only FEED and INIT write the registers but `FAULT` (`IST`, the cursor, the configuration registers), `SHADOW` and `EV`,
and no operation that reads writes `PB`; which operations write `FAULT` is said by StatusesAreRaisedAsTabulated (the
column "written by" of 10_state.md section 1, the column "reached by" of 20_memory.md section 4). The premise
`∃ w, decodeWord w = i` says that `i` is an operation of the command word, a feed step being part of FEED. -/
def Obligations.OnlyTheNamedOperationsWrite : Prop :=
  ∀ (i : Instr) (s : State), (∀ c, i ≠ .feed c) → i ≠ .init → (∃ w, decodeWord w = i) → ∃ t, exec i s = .next t ∧
    t = { s with pb := t.pb, fault := t.fault, result := t.result } ∧
    ((∃ x y, i = .getPixel x y) ∨ (∃ a, i = .readByte a) ∨ (∃ a, i = .inspect a) ∨ (∃ op, i = .reserved op) →
      t.pb = s.pb)

/-- The configuration, the Font Table with it, is constant: no step changes it (70_reset_and_hazards.md R204). -/
def Obligations.TheConfigurationIsConstant : Prop :=
  ∀ s t : State, step s = .next t → t.cfg = s.cfg ∧ ∀ a, t.memRead .fontrom a = s.memRead .fontrom a

/-! ### Headline statements -/

/-- Every step keeps the invariant: canonical memories (the model's own form, log entry 10), in-font `SHADOW` codes, and
`FAULT[7:3]` zero (10_state.md sections 1 and 2). -/
def Obligations.EveryStepKeepsTheInvariant : Prop :=
  ∀ s t : State, s.Inv → step s = .next t → t.Inv

/-- Redraw fidelity: INIT makes `PB` the rendering of `SHADOW`, and every operation but SET_PIXEL and RENDER_GLYPH keeps it
so (45_redraw_init.md, "rendering function and redraw fidelity"). -/
def Obligations.TextOperationsKeepTheRendering : Prop :=
  (∀ s : State, ∃ t, exec .init s = .next t ∧ t.Rendered) ∧
  ∀ (s t : State) (w : CmdWord) (rest : List CmdWord), s.shadowInFont → s.Rendered → s.pending = w :: rest →
    (∀ x y on, decodeWord w ≠ .setPixel x y on) → (∀ c row column, decodeWord w ≠ .renderGlyph c row column) →
    step s = .next t → t.Rendered

/-- Nothing but what the operations read can influence a run: states that look alike step to states that look alike, the
contents of `PB_RESET` and the representation of the memories making no difference. The view holds the model's own fields
`result` and `pending` as well, log entries 5 and 6 (44_interpreter.md section 6, "transitions are deterministic given
(state, input character)"). -/
def Obligations.StatesThatLookAlikeStepAlike : Prop :=
  ∀ s s' t t' : State, SameView s s' → step s = .next t → step s' = .next t' → SameView t t'

/-- After INIT nothing is left of the memories, the cursor and `IST` before it: two states of the same font, codes,
configuration registers, `FAULT`, events and input look alike after it, whatever their `PB_RESET`
(45_redraw_init.md, "the result of `fullClear` does not depend on the state before it"). -/
def Obligations.InitForgetsTheScreen : Prop :=
  ∀ s s' : State, s.cfg.codeHome = s'.cfg.codeHome → s.cfg.codeCls = s'.cfg.codeCls → s.cfg.fontLast = s'.cfg.fontLast →
    s.cfg.font = s'.cfg.font → s.contrast = s'.contrast → s.brightness = s'.brightness → s.fault = s'.fault →
    s.ev = s'.ev → s.pending = s'.pending →
    ∃ t t', exec .init s = .next t ∧ exec .init s' = .next t' ∧ SameView t t'
end

