-- ==== Sys2Proof/Laws/Memory.lean ====
section
/-! SUPPORT. The laws of one address space: what a write leaves to be read, and that it keeps the canonical form. -/

namespace Sys2Proof.Machine

/-- The listed addresses rise strictly. -/
abbrev Memory.Sorted (m : Memory) : Prop := m.Pairwise fun p q => p.1 < q.1

theorem Memory.lookup_put_same (m : Memory) (a : Nat) (v : Byte) : Memory.lookup (Memory.put m a v) a = some v := by
  induction m with
  | nil => simp [Memory.put, Memory.lookup]
  | cons p m ih =>
    simp only [Memory.put]
    split
    · simp only [Memory.lookup]; rw [if_neg (by omega), ih]
    · split <;> simp [Memory.lookup]

theorem Memory.lookup_put_other (m : Memory) {a b : Nat} (v : Byte) (h : b ≠ a) :
    Memory.lookup (Memory.put m a v) b = Memory.lookup m b := by
  induction m with
  | nil => simp [Memory.put, Memory.lookup, h.symm]
  | cons p m ih =>
    simp only [Memory.put]
    split
    · simp only [Memory.lookup, ih]
    · split
      · rename_i hk
        simp [Memory.lookup, h.symm, hk]
      · simp [Memory.lookup, h.symm]

theorem Memory.lookup_drop_same (m : Memory) (a : Nat) : Memory.lookup (Memory.drop m a) a = none := by
  induction m with
  | nil => rfl
  | cons p m ih =>
    simp only [Memory.drop]
    split
    · exact ih
    · rename_i h
      simp only [Memory.lookup]; rw [if_neg h, ih]

theorem Memory.lookup_drop_other (m : Memory) {a b : Nat} (h : b ≠ a) :
    Memory.lookup (Memory.drop m a) b = Memory.lookup m b := by
  induction m with
  | nil => rfl
  | cons p m ih =>
    simp only [Memory.drop]
    split
    · rename_i hk
      rw [ih]; simp [Memory.lookup, hk, h.symm]
    · simp only [Memory.lookup, ih]

theorem Memory.mem_put {m : Memory} {a : Nat} {v : Byte} {p : Host.Cell} (h : p ∈ Memory.put m a v) :
    p = (a, v) ∨ p ∈ m := by
  induction m with
  | nil => simpa [Memory.put] using h
  | cons q m ih =>
    simp only [Memory.put] at h
    split at h
    · rcases List.mem_cons.mp h with h | h
      · exact .inr (by simp [h])
      · exact (ih h).imp_right fun h => by simp [h]
    · split at h
      · rcases List.mem_cons.mp h with h | h
        · exact .inl h
        · exact .inr (by simp [h])
      · rcases List.mem_cons.mp h with h | h
        · exact .inl h
        · exact .inr h

theorem Memory.mem_drop {m : Memory} {a : Nat} {p : Host.Cell} (h : p ∈ Memory.drop m a) : p ∈ m := by
  induction m with
  | nil => exact h
  | cons q m ih =>
    simp only [Memory.drop] at h
    split at h
    · exact List.mem_cons_of_mem _ (ih h)
    · rcases List.mem_cons.mp h with h | h
      · simp [h]
      · exact List.mem_cons_of_mem _ (ih h)

theorem Memory.sorted_put {m : Memory} (hs : Memory.Sorted m) (a : Nat) (v : Byte) :
    Memory.Sorted (Memory.put m a v) := by
  induction m with
  | nil => simp [Memory.put, Memory.Sorted]
  | cons p m ih =>
    obtain ⟨hp, hm⟩ := List.pairwise_cons.mp hs
    simp only [Memory.put]
    split
    · refine List.pairwise_cons.mpr ⟨fun q hq => ?_, ih hm⟩
      rcases Memory.mem_put hq with rfl | hq
      · assumption
      · exact hp q hq
    · split
      · rename_i h
        exact List.pairwise_cons.mpr ⟨fun q hq => h ▸ hp q hq, hm⟩
      · rename_i h1 h2
        refine List.pairwise_cons.mpr ⟨fun q hq => ?_, hs⟩
        rcases List.mem_cons.mp hq with h | hq
        · rw [h]; show a < p.1; omega
        · have := hp q hq; show a < q.1; omega

theorem Memory.sorted_drop {m : Memory} (hs : Memory.Sorted m) (a : Nat) : Memory.Sorted (Memory.drop m a) := by
  induction m with
  | nil => exact hs
  | cons p m ih =>
    obtain ⟨hp, hm⟩ := List.pairwise_cons.mp hs
    simp only [Memory.drop]
    split
    · exact ih hm
    · exact List.pairwise_cons.mpr ⟨fun q hq => hp q (Memory.mem_drop hq), ih hm⟩

/-- What the canonical form says. -/
theorem Memory.wf_iff {unl : Nat → Byte} {size : Nat} {m : Memory} :
    Memory.wf unl size m = true ↔ Memory.Sorted m ∧ ∀ p ∈ m, p.1 < size ∧ p.2 ≠ unl p.1 := by
  simp [Memory.wf, Memory.Sorted]

theorem Memory.sorted_of_wf {unl : Nat → Byte} {size : Nat} {m : Memory} (h : Memory.wf unl size m = true) :
    Memory.Sorted m := (Memory.wf_iff.mp h).1

/-- A byte just written reads as it was written. -/
theorem Memory.read_write_same (unl : Nat → Byte) (m : Memory) (a : Nat) (v : Byte) :
    Memory.read unl (Memory.write unl m a v) a = v := by
  unfold Memory.read Memory.write
  split
  · rename_i h; simp [Memory.lookup_drop_same, h]
  · simp [Memory.lookup_put_same]

/-- Every other byte reads as before. -/
theorem Memory.read_write_other (unl : Nat → Byte) (m : Memory) {a b : Nat} (v : Byte) (h : b ≠ a) :
    Memory.read unl (Memory.write unl m a v) b = Memory.read unl m b := by
  unfold Memory.read Memory.write
  split
  · rw [Memory.lookup_drop_other m h]
  · rw [Memory.lookup_put_other m v h]

/-- A write inside the space keeps the canonical form. -/
theorem Memory.wf_write {unl : Nat → Byte} {size : Nat} {m : Memory} (h : Memory.wf unl size m = true) {a : Nat}
    (ha : a < size) (v : Byte) : Memory.wf unl size (Memory.write unl m a v) = true := by
  obtain ⟨hs, hm⟩ := Memory.wf_iff.mp h
  refine Memory.wf_iff.mpr ?_
  unfold Memory.write
  split
  · exact ⟨Memory.sorted_drop hs a, fun p hp => hm p (Memory.mem_drop hp)⟩
  · rename_i hv
    refine ⟨Memory.sorted_put hs a v, fun p hp => ?_⟩
    rcases Memory.mem_put hp with rfl | hp
    · exact ⟨ha, hv⟩
    · exact hm p hp

theorem Memory.lookup_mem {m : Memory} {a : Nat} {v : Byte} (h : Memory.lookup m a = some v) : (a, v) ∈ m := by
  induction m with
  | nil => simp [Memory.lookup] at h
  | cons p m ih =>
    simp only [Memory.lookup] at h
    split at h
    · rename_i hk; cases h; simp [← hk]
    · exact List.mem_cons_of_mem _ (ih h)

theorem Memory.lookup_of_mem {m : Memory} (hs : Memory.Sorted m) {p : Host.Cell} (hp : p ∈ m) :
    Memory.lookup m p.1 = some p.2 := by
  induction m with
  | nil => simp at hp
  | cons q m ih =>
    obtain ⟨hq, hm⟩ := List.pairwise_cons.mp hs
    rcases List.mem_cons.mp hp with rfl | hp
    · simp [Memory.lookup]
    · have := hq p hp
      simp only [Memory.lookup]; rw [if_neg (by omega), ih hm hp]

/-- In canonical form an address is listed exactly where it reads as something else than an unlisted address would. -/
theorem Memory.lookup_eq_of_wf {unl : Nat → Byte} {size : Nat} {m : Memory} (h : Memory.wf unl size m = true) (a : Nat) :
    Memory.lookup m a = if Memory.read unl m a = unl a then none else some (Memory.read unl m a) := by
  obtain ⟨-, hm⟩ := Memory.wf_iff.mp h
  unfold Memory.read
  cases hl : Memory.lookup m a with
  | none => simp
  | some v =>
    have := (hm _ (Memory.lookup_mem hl)).2
    simp_all

/-- Two memories in canonical form that read alike are the same list. -/
theorem Memory.eq_of_read_eq {unl : Nat → Byte} {size : Nat} {m n : Memory} (hm : Memory.wf unl size m = true)
    (hn : Memory.wf unl size n = true) (h : ∀ a, a < size → Memory.read unl m a = Memory.read unl n a) : m = n := by
  have hl : ∀ a, Memory.lookup m a = Memory.lookup n a := by
    intro a
    by_cases ha : a < size
    · rw [Memory.lookup_eq_of_wf hm, Memory.lookup_eq_of_wf hn, h a ha]
    · have key : ∀ {k : Memory}, Memory.wf unl size k = true → Memory.lookup k a = none := by
        intro k hk
        cases hl : Memory.lookup k a with
        | none => rfl
        | some v => exact absurd ((Memory.wf_iff.mp hk).2 _ (Memory.lookup_mem hl)).1 ha
      rw [key hm, key hn]
  have hs := Memory.sorted_of_wf hm
  have ht := Memory.sorted_of_wf hn
  have nd : ∀ {k : Memory}, Memory.Sorted k → k.Nodup := fun hk =>
    List.Pairwise.imp (fun h e => absurd (congrArg Prod.fst e) (Nat.ne_of_lt h)) hk
  have hp : m.Perm n := (List.perm_ext_iff_of_nodup (nd hs) (nd ht)).mpr fun p =>
    ⟨fun hp => Memory.lookup_mem (hl p.1 ▸ Memory.lookup_of_mem hs hp),
     fun hp => Memory.lookup_mem (hl p.1 ▸ Memory.lookup_of_mem ht hp)⟩
  exact List.Perm.eq_of_pairwise (le := fun p q => p.1 < q.1) (fun a b _ _ h1 h2 => absurd h1 (Nat.lt_asymm h2)) hs ht hp

end Sys2Proof.Machine
end

