-- ==== Sys2Proof/Laws/State.lean ====
section
/-! SUPPORT. The state record: one lemma a field for each update, so that no proof unfolds an update. -/

namespace Sys2Proof.Machine

/-- What every step of a fold keeps, the fold keeps. -/
theorem foldl_keeps {α β : Type} (f : State → β) (g : State → α → State) (h : ∀ s x, f (g s x) = f s) (l : List α)
    (s : State) : f (l.foldl g s) = f s := by
  induction l generalizing s with
  | nil => rfl
  | cons x l ih => rw [List.foldl_cons, ih, h]


/-! ### Completing -/

@[simp] theorem State.complete_cfg (s : State) (d : Byte) : (s.complete d).cfg = s.cfg := rfl
@[simp] theorem State.complete_ist (s : State) (d : Byte) : (s.complete d).ist = s.ist := rfl
@[simp] theorem State.complete_crow (s : State) (d : Byte) : (s.complete d).crow = s.crow := rfl
@[simp] theorem State.complete_ccol (s : State) (d : Byte) : (s.complete d).ccol = s.ccol := rfl
@[simp] theorem State.complete_contrast (s : State) (d : Byte) : (s.complete d).contrast = s.contrast := rfl
@[simp] theorem State.complete_brightness (s : State) (d : Byte) : (s.complete d).brightness = s.brightness := rfl
@[simp] theorem State.complete_fault (s : State) (d : Byte) : (s.complete d).fault = s.fault := rfl
@[simp] theorem State.complete_shadow (s : State) (d : Byte) : (s.complete d).shadow = s.shadow := rfl
@[simp] theorem State.complete_pb (s : State) (d : Byte) : (s.complete d).pb = s.pb := rfl
@[simp] theorem State.complete_ev (s : State) (d : Byte) : (s.complete d).ev = s.ev := rfl
@[simp] theorem State.complete_result (s : State) (d : Byte) : (s.complete d).result = some (resultWord .ok d) := rfl
@[simp] theorem State.complete_pending (s : State) (d : Byte) : (s.complete d).pending = s.pending := rfl
@[simp] theorem State.complete_memRead (s : State) (d : Byte) (sp : Space) (b : Nat) :
    (s.complete d).memRead sp b = s.memRead sp b := rfl

/-! ### Raising a status -/

@[simp] theorem State.raise_cfg (s : State) (f : Status) : (s.raise f).cfg = s.cfg := rfl
@[simp] theorem State.raise_ist (s : State) (f : Status) : (s.raise f).ist = s.ist := rfl
@[simp] theorem State.raise_crow (s : State) (f : Status) : (s.raise f).crow = s.crow := rfl
@[simp] theorem State.raise_ccol (s : State) (f : Status) : (s.raise f).ccol = s.ccol := rfl
@[simp] theorem State.raise_contrast (s : State) (f : Status) : (s.raise f).contrast = s.contrast := rfl
@[simp] theorem State.raise_brightness (s : State) (f : Status) : (s.raise f).brightness = s.brightness := rfl
@[simp] theorem State.raise_fault (s : State) (f : Status) : (s.raise f).fault = s.fault ||| faultBits f := rfl
@[simp] theorem State.raise_shadow (s : State) (f : Status) : (s.raise f).shadow = s.shadow := rfl
@[simp] theorem State.raise_pb (s : State) (f : Status) : (s.raise f).pb = s.pb := rfl
@[simp] theorem State.raise_ev (s : State) (f : Status) : (s.raise f).ev = s.ev := rfl
@[simp] theorem State.raise_result (s : State) (f : Status) : (s.raise f).result = some (resultWord f 0#8) := rfl
@[simp] theorem State.raise_pending (s : State) (f : Status) : (s.raise f).pending = s.pending := rfl
@[simp] theorem State.raise_memRead (s : State) (f : Status) (sp : Space) (b : Nat) :
    (s.raise f).memRead sp b = s.memRead sp b := rfl

/-! ### Emitting an event -/

@[simp] theorem State.emit_cfg (s : State) (e : Event) : (s.emit e).cfg = s.cfg := rfl
@[simp] theorem State.emit_ist (s : State) (e : Event) : (s.emit e).ist = s.ist := rfl
@[simp] theorem State.emit_crow (s : State) (e : Event) : (s.emit e).crow = s.crow := rfl
@[simp] theorem State.emit_ccol (s : State) (e : Event) : (s.emit e).ccol = s.ccol := rfl
@[simp] theorem State.emit_contrast (s : State) (e : Event) : (s.emit e).contrast = s.contrast := rfl
@[simp] theorem State.emit_brightness (s : State) (e : Event) : (s.emit e).brightness = s.brightness := rfl
@[simp] theorem State.emit_fault (s : State) (e : Event) : (s.emit e).fault = s.fault := rfl
@[simp] theorem State.emit_shadow (s : State) (e : Event) : (s.emit e).shadow = s.shadow := rfl
@[simp] theorem State.emit_pb (s : State) (e : Event) : (s.emit e).pb = s.pb := rfl
@[simp] theorem State.emit_ev (s : State) (e : Event) : (s.emit e).ev = s.ev ++ [e] := rfl
@[simp] theorem State.emit_result (s : State) (e : Event) : (s.emit e).result = s.result := rfl
@[simp] theorem State.emit_pending (s : State) (e : Event) : (s.emit e).pending = s.pending := rfl
@[simp] theorem State.emit_memRead (s : State) (e : Event) (sp : Space) (b : Nat) :
    (s.emit e).memRead sp b = s.memRead sp b := rfl

/-! ### The cursor goes home -/

@[simp] theorem State.home_cfg (s : State) : (s.home).cfg = s.cfg := rfl
@[simp] theorem State.home_ist (s : State) : (s.home).ist = s.ist := rfl
@[simp] theorem State.home_crow (s : State) : (s.home).crow = 0#1 := rfl
@[simp] theorem State.home_ccol (s : State) : (s.home).ccol = 0#4 := rfl
@[simp] theorem State.home_contrast (s : State) : (s.home).contrast = s.contrast := rfl
@[simp] theorem State.home_brightness (s : State) : (s.home).brightness = s.brightness := rfl
@[simp] theorem State.home_fault (s : State) : (s.home).fault = s.fault := rfl
@[simp] theorem State.home_shadow (s : State) : (s.home).shadow = s.shadow := rfl
@[simp] theorem State.home_pb (s : State) : (s.home).pb = s.pb := rfl
@[simp] theorem State.home_ev (s : State) : (s.home).ev = s.ev := rfl
@[simp] theorem State.home_result (s : State) : (s.home).result = s.result := rfl
@[simp] theorem State.home_pending (s : State) : (s.home).pending = s.pending := rfl
@[simp] theorem State.home_memRead (s : State) (sp : Space) (b : Nat) :
    (s.home).memRead sp b = s.memRead sp b := rfl

/-! ### Carriage return -/

@[simp] theorem State.carriageReturn_cfg (s : State) : (s.carriageReturn).cfg = s.cfg := rfl
@[simp] theorem State.carriageReturn_ist (s : State) : (s.carriageReturn).ist = s.ist := rfl
@[simp] theorem State.carriageReturn_crow (s : State) : (s.carriageReturn).crow = s.crow := rfl
@[simp] theorem State.carriageReturn_ccol (s : State) : (s.carriageReturn).ccol = 0#4 := rfl
@[simp] theorem State.carriageReturn_contrast (s : State) : (s.carriageReturn).contrast = s.contrast := rfl
@[simp] theorem State.carriageReturn_brightness (s : State) : (s.carriageReturn).brightness = s.brightness := rfl
@[simp] theorem State.carriageReturn_fault (s : State) : (s.carriageReturn).fault = s.fault := rfl
@[simp] theorem State.carriageReturn_shadow (s : State) : (s.carriageReturn).shadow = s.shadow := rfl
@[simp] theorem State.carriageReturn_pb (s : State) : (s.carriageReturn).pb = s.pb := rfl
@[simp] theorem State.carriageReturn_ev (s : State) : (s.carriageReturn).ev = s.ev := rfl
@[simp] theorem State.carriageReturn_result (s : State) : (s.carriageReturn).result = s.result := rfl
@[simp] theorem State.carriageReturn_pending (s : State) : (s.carriageReturn).pending = s.pending := rfl
@[simp] theorem State.carriageReturn_memRead (s : State) (sp : Space) (b : Nat) :
    (s.carriageReturn).memRead sp b = s.memRead sp b := rfl

/-! ### Line feed -/

@[simp] theorem State.lineFeed_cfg (s : State) : (s.lineFeed).cfg = s.cfg := rfl
@[simp] theorem State.lineFeed_ist (s : State) : (s.lineFeed).ist = s.ist := rfl
@[simp] theorem State.lineFeed_crow (s : State) : (s.lineFeed).crow = s.crow + 1#1 := rfl
@[simp] theorem State.lineFeed_ccol (s : State) : (s.lineFeed).ccol = s.ccol := rfl
@[simp] theorem State.lineFeed_contrast (s : State) : (s.lineFeed).contrast = s.contrast := rfl
@[simp] theorem State.lineFeed_brightness (s : State) : (s.lineFeed).brightness = s.brightness := rfl
@[simp] theorem State.lineFeed_fault (s : State) : (s.lineFeed).fault = s.fault := rfl
@[simp] theorem State.lineFeed_shadow (s : State) : (s.lineFeed).shadow = s.shadow := rfl
@[simp] theorem State.lineFeed_pb (s : State) : (s.lineFeed).pb = s.pb := rfl
@[simp] theorem State.lineFeed_ev (s : State) : (s.lineFeed).ev = s.ev := rfl
@[simp] theorem State.lineFeed_result (s : State) : (s.lineFeed).result = s.result := rfl
@[simp] theorem State.lineFeed_pending (s : State) : (s.lineFeed).pending = s.pending := rfl
@[simp] theorem State.lineFeed_memRead (s : State) (sp : Space) (b : Nat) :
    (s.lineFeed).memRead sp b = s.memRead sp b := rfl

/-! ### Restoring the cursor -/

@[simp] theorem State.restoreCursor_cfg (s : State) (r : BitVec 1) (c : BitVec 4) : (s.restoreCursor r c).cfg = s.cfg := rfl
@[simp] theorem State.restoreCursor_ist (s : State) (r : BitVec 1) (c : BitVec 4) : (s.restoreCursor r c).ist = s.ist := rfl
@[simp] theorem State.restoreCursor_crow (s : State) (r : BitVec 1) (c : BitVec 4) : (s.restoreCursor r c).crow = r := rfl
@[simp] theorem State.restoreCursor_ccol (s : State) (r : BitVec 1) (c : BitVec 4) : (s.restoreCursor r c).ccol = c := rfl
@[simp] theorem State.restoreCursor_contrast (s : State) (r : BitVec 1) (c : BitVec 4) : (s.restoreCursor r c).contrast = s.contrast := rfl
@[simp] theorem State.restoreCursor_brightness (s : State) (r : BitVec 1) (c : BitVec 4) : (s.restoreCursor r c).brightness = s.brightness := rfl
@[simp] theorem State.restoreCursor_fault (s : State) (r : BitVec 1) (c : BitVec 4) : (s.restoreCursor r c).fault = s.fault := rfl
@[simp] theorem State.restoreCursor_shadow (s : State) (r : BitVec 1) (c : BitVec 4) : (s.restoreCursor r c).shadow = s.shadow := rfl
@[simp] theorem State.restoreCursor_pb (s : State) (r : BitVec 1) (c : BitVec 4) : (s.restoreCursor r c).pb = s.pb := rfl
@[simp] theorem State.restoreCursor_ev (s : State) (r : BitVec 1) (c : BitVec 4) : (s.restoreCursor r c).ev = s.ev := rfl
@[simp] theorem State.restoreCursor_result (s : State) (r : BitVec 1) (c : BitVec 4) : (s.restoreCursor r c).result = s.result := rfl
@[simp] theorem State.restoreCursor_pending (s : State) (r : BitVec 1) (c : BitVec 4) : (s.restoreCursor r c).pending = s.pending := rfl
@[simp] theorem State.restoreCursor_memRead (s : State) (r : BitVec 1) (c : BitVec 4) (sp : Space) (b : Nat) :
    (s.restoreCursor r c).memRead sp b = s.memRead sp b := rfl

/-! ### Pushing the configuration -/

@[simp] theorem State.pushConfig_cfg (s : State) : (s.pushConfig).cfg = s.cfg := rfl
@[simp] theorem State.pushConfig_ist (s : State) : (s.pushConfig).ist = .idle := rfl
@[simp] theorem State.pushConfig_crow (s : State) : (s.pushConfig).crow = s.crow := rfl
@[simp] theorem State.pushConfig_ccol (s : State) : (s.pushConfig).ccol = s.ccol := rfl
@[simp] theorem State.pushConfig_contrast (s : State) : (s.pushConfig).contrast = s.contrast := rfl
@[simp] theorem State.pushConfig_brightness (s : State) : (s.pushConfig).brightness = s.brightness := rfl
@[simp] theorem State.pushConfig_fault (s : State) : (s.pushConfig).fault = s.fault := rfl
@[simp] theorem State.pushConfig_shadow (s : State) : (s.pushConfig).shadow = s.shadow := rfl
@[simp] theorem State.pushConfig_pb (s : State) : (s.pushConfig).pb = s.pb := rfl
@[simp] theorem State.pushConfig_ev (s : State) : (s.pushConfig).ev = s.ev ++ [.configPush s.contrast s.brightness] := rfl
@[simp] theorem State.pushConfig_result (s : State) : (s.pushConfig).result = s.result := rfl
@[simp] theorem State.pushConfig_pending (s : State) : (s.pushConfig).pending = s.pending := rfl
@[simp] theorem State.pushConfig_memRead (s : State) (sp : Space) (b : Nat) :
    (s.pushConfig).memRead sp b = s.memRead sp b := rfl

/-! ### Advancing the cursor -/

@[simp] theorem State.advanceAfterGlyph_cfg (s : State) : (s.advanceAfterGlyph).cfg = s.cfg := by
  unfold State.advanceAfterGlyph; split <;> [split; skip] <;> rfl
@[simp] theorem State.advanceAfterGlyph_ist (s : State) : (s.advanceAfterGlyph).ist = s.ist := by
  unfold State.advanceAfterGlyph; split <;> [split; skip] <;> rfl
@[simp] theorem State.advanceAfterGlyph_contrast (s : State) : (s.advanceAfterGlyph).contrast = s.contrast := by
  unfold State.advanceAfterGlyph; split <;> [split; skip] <;> rfl
@[simp] theorem State.advanceAfterGlyph_brightness (s : State) : (s.advanceAfterGlyph).brightness = s.brightness := by
  unfold State.advanceAfterGlyph; split <;> [split; skip] <;> rfl
@[simp] theorem State.advanceAfterGlyph_fault (s : State) : (s.advanceAfterGlyph).fault = s.fault := by
  unfold State.advanceAfterGlyph; split <;> [split; skip] <;> rfl
@[simp] theorem State.advanceAfterGlyph_shadow (s : State) : (s.advanceAfterGlyph).shadow = s.shadow := by
  unfold State.advanceAfterGlyph; split <;> [split; skip] <;> rfl
@[simp] theorem State.advanceAfterGlyph_pb (s : State) : (s.advanceAfterGlyph).pb = s.pb := by
  unfold State.advanceAfterGlyph; split <;> [split; skip] <;> rfl
@[simp] theorem State.advanceAfterGlyph_ev (s : State) : (s.advanceAfterGlyph).ev = s.ev := by
  unfold State.advanceAfterGlyph; split <;> [split; skip] <;> rfl
@[simp] theorem State.advanceAfterGlyph_result (s : State) : (s.advanceAfterGlyph).result = s.result := by
  unfold State.advanceAfterGlyph; split <;> [split; skip] <;> rfl
@[simp] theorem State.advanceAfterGlyph_pending (s : State) : (s.advanceAfterGlyph).pending = s.pending := by
  unfold State.advanceAfterGlyph; split <;> [split; skip] <;> rfl
@[simp] theorem State.advanceAfterGlyph_memRead (s : State) (sp : Space) (b : Nat) :
    (s.advanceAfterGlyph).memRead sp b = s.memRead sp b := by
  unfold State.advanceAfterGlyph; split <;> [split; skip] <;> rfl

/-! ### Writing a byte -/

@[simp] theorem State.memWrite_cfg (s : State) (sp : Space) (a : Nat) (v : Byte) : (s.memWrite sp a v).cfg = s.cfg := by cases sp <;> rfl
@[simp] theorem State.memWrite_ist (s : State) (sp : Space) (a : Nat) (v : Byte) : (s.memWrite sp a v).ist = s.ist := by cases sp <;> rfl
@[simp] theorem State.memWrite_crow (s : State) (sp : Space) (a : Nat) (v : Byte) : (s.memWrite sp a v).crow = s.crow := by cases sp <;> rfl
@[simp] theorem State.memWrite_ccol (s : State) (sp : Space) (a : Nat) (v : Byte) : (s.memWrite sp a v).ccol = s.ccol := by cases sp <;> rfl
@[simp] theorem State.memWrite_contrast (s : State) (sp : Space) (a : Nat) (v : Byte) : (s.memWrite sp a v).contrast = s.contrast := by cases sp <;> rfl
@[simp] theorem State.memWrite_brightness (s : State) (sp : Space) (a : Nat) (v : Byte) : (s.memWrite sp a v).brightness = s.brightness := by cases sp <;> rfl
@[simp] theorem State.memWrite_fault (s : State) (sp : Space) (a : Nat) (v : Byte) : (s.memWrite sp a v).fault = s.fault := by cases sp <;> rfl
@[simp] theorem State.memWrite_ev (s : State) (sp : Space) (a : Nat) (v : Byte) : (s.memWrite sp a v).ev = s.ev := by cases sp <;> rfl
@[simp] theorem State.memWrite_result (s : State) (sp : Space) (a : Nat) (v : Byte) : (s.memWrite sp a v).result = s.result := by cases sp <;> rfl
@[simp] theorem State.memWrite_pending (s : State) (sp : Space) (a : Nat) (v : Byte) : (s.memWrite sp a v).pending = s.pending := by cases sp <;> rfl
@[simp] theorem State.memWrite_shadow_pb (s : State) (a : Nat) (v : Byte) : (s.memWrite .shadow a v).pb = s.pb := rfl
@[simp] theorem State.memWrite_pb_shadow (s : State) (a : Nat) (v : Byte) : (s.memWrite .pb a v).shadow = s.shadow := rfl

/-! ### Setting a pixel -/

@[simp] theorem State.setPixel_cfg (s : State) (x y : Nat) (on : Bool) : (s.setPixel x y on).cfg = s.cfg := by
  unfold State.setPixel; split <;> simp
@[simp] theorem State.setPixel_ist (s : State) (x y : Nat) (on : Bool) : (s.setPixel x y on).ist = s.ist := by
  unfold State.setPixel; split <;> simp
@[simp] theorem State.setPixel_crow (s : State) (x y : Nat) (on : Bool) : (s.setPixel x y on).crow = s.crow := by
  unfold State.setPixel; split <;> simp
@[simp] theorem State.setPixel_ccol (s : State) (x y : Nat) (on : Bool) : (s.setPixel x y on).ccol = s.ccol := by
  unfold State.setPixel; split <;> simp
@[simp] theorem State.setPixel_contrast (s : State) (x y : Nat) (on : Bool) : (s.setPixel x y on).contrast = s.contrast := by
  unfold State.setPixel; split <;> simp
@[simp] theorem State.setPixel_brightness (s : State) (x y : Nat) (on : Bool) : (s.setPixel x y on).brightness = s.brightness := by
  unfold State.setPixel; split <;> simp
@[simp] theorem State.setPixel_fault (s : State) (x y : Nat) (on : Bool) : (s.setPixel x y on).fault = s.fault := by
  unfold State.setPixel; split <;> simp
@[simp] theorem State.setPixel_ev (s : State) (x y : Nat) (on : Bool) : (s.setPixel x y on).ev = s.ev := by
  unfold State.setPixel; split <;> simp
@[simp] theorem State.setPixel_result (s : State) (x y : Nat) (on : Bool) : (s.setPixel x y on).result = s.result := by
  unfold State.setPixel; split <;> simp
@[simp] theorem State.setPixel_pending (s : State) (x y : Nat) (on : Bool) : (s.setPixel x y on).pending = s.pending := by
  unfold State.setPixel; split <;> simp
@[simp] theorem State.setPixel_shadow (s : State) (x y : Nat) (on : Bool) : (s.setPixel x y on).shadow = s.shadow := by
  unfold State.setPixel; split <;> rfl
@[simp] theorem State.setPixel_memRead_shadow (s : State) (x y : Nat) (on : Bool) (b : Nat) :
    (s.setPixel x y on).memRead .shadow b = s.memRead .shadow b := by simp [State.memRead, State.space]
@[simp] theorem State.setPixel_memRead_fontrom (s : State) (x y : Nat) (on : Bool) (b : Nat) :
    (s.setPixel x y on).memRead .fontrom b = s.memRead .fontrom b := by simp [State.memRead, State.space]

/-! ### Drawing a glyph row -/

@[simp] theorem State.drawGlyphRow_cfg (s : State) (b : Byte) (r row column : Nat) : (s.drawGlyphRow b r row column).cfg = s.cfg := 
  foldl_keeps _ _ (by simp) _ _
@[simp] theorem State.drawGlyphRow_ist (s : State) (b : Byte) (r row column : Nat) : (s.drawGlyphRow b r row column).ist = s.ist := 
  foldl_keeps _ _ (by simp) _ _
@[simp] theorem State.drawGlyphRow_crow (s : State) (b : Byte) (r row column : Nat) : (s.drawGlyphRow b r row column).crow = s.crow := 
  foldl_keeps _ _ (by simp) _ _
@[simp] theorem State.drawGlyphRow_ccol (s : State) (b : Byte) (r row column : Nat) : (s.drawGlyphRow b r row column).ccol = s.ccol := 
  foldl_keeps _ _ (by simp) _ _
@[simp] theorem State.drawGlyphRow_contrast (s : State) (b : Byte) (r row column : Nat) : (s.drawGlyphRow b r row column).contrast = s.contrast := 
  foldl_keeps _ _ (by simp) _ _
@[simp] theorem State.drawGlyphRow_brightness (s : State) (b : Byte) (r row column : Nat) : (s.drawGlyphRow b r row column).brightness = s.brightness := 
  foldl_keeps _ _ (by simp) _ _
@[simp] theorem State.drawGlyphRow_fault (s : State) (b : Byte) (r row column : Nat) : (s.drawGlyphRow b r row column).fault = s.fault := 
  foldl_keeps _ _ (by simp) _ _
@[simp] theorem State.drawGlyphRow_shadow (s : State) (b : Byte) (r row column : Nat) : (s.drawGlyphRow b r row column).shadow = s.shadow := 
  foldl_keeps _ _ (by simp) _ _
@[simp] theorem State.drawGlyphRow_ev (s : State) (b : Byte) (r row column : Nat) : (s.drawGlyphRow b r row column).ev = s.ev := 
  foldl_keeps _ _ (by simp) _ _
@[simp] theorem State.drawGlyphRow_result (s : State) (b : Byte) (r row column : Nat) : (s.drawGlyphRow b r row column).result = s.result := 
  foldl_keeps _ _ (by simp) _ _
@[simp] theorem State.drawGlyphRow_pending (s : State) (b : Byte) (r row column : Nat) : (s.drawGlyphRow b r row column).pending = s.pending := 
  foldl_keeps _ _ (by simp) _ _
@[simp] theorem State.drawGlyphRow_memRead_shadow (s : State) (b : Byte) (r row column a : Nat) :
    (s.drawGlyphRow b r row column).memRead .shadow a = s.memRead .shadow a := by simp [State.memRead, State.space]
@[simp] theorem State.drawGlyphRow_memRead_fontrom (s : State) (b : Byte) (r row column a : Nat) :
    (s.drawGlyphRow b r row column).memRead .fontrom a = s.memRead .fontrom a := by simp [State.memRead, State.space]

/-! ### Drawing a glyph -/

@[simp] theorem State.drawGlyph_cfg (s : State) (c : Byte) (row column : Nat) : (s.drawGlyph c row column).cfg = s.cfg := 
  foldl_keeps _ _ (by simp) _ _
@[simp] theorem State.drawGlyph_ist (s : State) (c : Byte) (row column : Nat) : (s.drawGlyph c row column).ist = s.ist := 
  foldl_keeps _ _ (by simp) _ _
@[simp] theorem State.drawGlyph_crow (s : State) (c : Byte) (row column : Nat) : (s.drawGlyph c row column).crow = s.crow := 
  foldl_keeps _ _ (by simp) _ _
@[simp] theorem State.drawGlyph_ccol (s : State) (c : Byte) (row column : Nat) : (s.drawGlyph c row column).ccol = s.ccol := 
  foldl_keeps _ _ (by simp) _ _
@[simp] theorem State.drawGlyph_contrast (s : State) (c : Byte) (row column : Nat) : (s.drawGlyph c row column).contrast = s.contrast := 
  foldl_keeps _ _ (by simp) _ _
@[simp] theorem State.drawGlyph_brightness (s : State) (c : Byte) (row column : Nat) : (s.drawGlyph c row column).brightness = s.brightness := 
  foldl_keeps _ _ (by simp) _ _
@[simp] theorem State.drawGlyph_fault (s : State) (c : Byte) (row column : Nat) : (s.drawGlyph c row column).fault = s.fault := 
  foldl_keeps _ _ (by simp) _ _
@[simp] theorem State.drawGlyph_shadow (s : State) (c : Byte) (row column : Nat) : (s.drawGlyph c row column).shadow = s.shadow := 
  foldl_keeps _ _ (by simp) _ _
@[simp] theorem State.drawGlyph_ev (s : State) (c : Byte) (row column : Nat) : (s.drawGlyph c row column).ev = s.ev := 
  foldl_keeps _ _ (by simp) _ _
@[simp] theorem State.drawGlyph_result (s : State) (c : Byte) (row column : Nat) : (s.drawGlyph c row column).result = s.result := 
  foldl_keeps _ _ (by simp) _ _
@[simp] theorem State.drawGlyph_pending (s : State) (c : Byte) (row column : Nat) : (s.drawGlyph c row column).pending = s.pending := 
  foldl_keeps _ _ (by simp) _ _
@[simp] theorem State.drawGlyph_memRead_shadow (s : State) (c : Byte) (row column a : Nat) :
    (s.drawGlyph c row column).memRead .shadow a = s.memRead .shadow a := by simp [State.memRead, State.space]
@[simp] theorem State.drawGlyph_memRead_fontrom (s : State) (c : Byte) (row column a : Nat) :
    (s.drawGlyph c row column).memRead .fontrom a = s.memRead .fontrom a := by simp [State.memRead, State.space]

/-! ### Clearing the Text Shadow Buffer -/

@[simp] theorem State.clearShadow_cfg (s : State) : (s.clearShadow).cfg = s.cfg := 
  foldl_keeps _ _ (by simp) _ _
@[simp] theorem State.clearShadow_ist (s : State) : (s.clearShadow).ist = s.ist := 
  foldl_keeps _ _ (by simp) _ _
@[simp] theorem State.clearShadow_crow (s : State) : (s.clearShadow).crow = s.crow := 
  foldl_keeps _ _ (by simp) _ _
@[simp] theorem State.clearShadow_ccol (s : State) : (s.clearShadow).ccol = s.ccol := 
  foldl_keeps _ _ (by simp) _ _
@[simp] theorem State.clearShadow_contrast (s : State) : (s.clearShadow).contrast = s.contrast := 
  foldl_keeps _ _ (by simp) _ _
@[simp] theorem State.clearShadow_brightness (s : State) : (s.clearShadow).brightness = s.brightness := 
  foldl_keeps _ _ (by simp) _ _
@[simp] theorem State.clearShadow_fault (s : State) : (s.clearShadow).fault = s.fault := 
  foldl_keeps _ _ (by simp) _ _
@[simp] theorem State.clearShadow_ev (s : State) : (s.clearShadow).ev = s.ev := 
  foldl_keeps _ _ (by simp) _ _
@[simp] theorem State.clearShadow_result (s : State) : (s.clearShadow).result = s.result := 
  foldl_keeps _ _ (by simp) _ _
@[simp] theorem State.clearShadow_pending (s : State) : (s.clearShadow).pending = s.pending := 
  foldl_keeps _ _ (by simp) _ _
@[simp] theorem State.clearShadow_pb (s : State) : s.clearShadow.pb = s.pb :=
  foldl_keeps (fun t => t.pb) _ (by simp) _ _
@[simp] theorem State.clearShadow_memRead_pb (s : State) (a : Nat) :
    s.clearShadow.memRead .pb a = s.memRead .pb a := by simp [State.memRead, State.space]
@[simp] theorem State.clearShadow_memRead_fontrom (s : State) (a : Nat) :
    s.clearShadow.memRead .fontrom a = s.memRead .fontrom a := by simp [State.memRead, State.space]

end Sys2Proof.Machine
end

