-- ==== Sys2Proof/Laws/Access.lean ====
section
/-! SUPPORT. Byte access through the state: what a write leaves to be read in each space, and that it keeps the canonical
form. -/

namespace Sys2Proof.Machine

/-- A byte written to a writable space reads as it was written. -/
theorem State.memRead_memWrite_same (s : State) {sp : Space} (h : sp ≠ .fontrom) (a : Nat) (v : Byte) :
    (s.memWrite sp a v).memRead sp a = v := by
  cases sp with
  | pb => exact Memory.read_write_same _ _ _ _
  | shadow => exact Memory.read_write_same _ _ _ _
  | fontrom => exact absurd rfl h

/-- Every other byte of every space reads as before. -/
theorem State.memRead_memWrite_other (s : State) {sp sp' : Space} {a b : Nat} (v : Byte) (h : sp' ≠ sp ∨ b ≠ a) :
    (s.memWrite sp a v).memRead sp' b = s.memRead sp' b := by
  cases sp <;> cases sp' <;> simp_all [State.memWrite, State.memRead, State.space, Memory.read_write_other]

/-- The Font Table is constant under writes. -/
@[simp] theorem State.memWrite_memRead_fontrom (s : State) (sp : Space) (a b : Nat) (v : Byte) :
    (s.memWrite sp a v).memRead .fontrom b = s.memRead .fontrom b := by
  cases sp <;> rfl

@[simp] theorem State.memWrite_shadow_memRead_pb (s : State) (a b : Nat) (v : Byte) :
    (s.memWrite .shadow a v).memRead .pb b = s.memRead .pb b := rfl

@[simp] theorem State.memWrite_pb_memRead_shadow (s : State) (a b : Nat) (v : Byte) :
    (s.memWrite .pb a v).memRead .shadow b = s.memRead .shadow b := rfl

/-- A write inside a writable space keeps both memories canonical. -/
theorem State.memWrite_memoryWf {s : State} (h : s.memoryWf) {sp : Space} {a : Nat} (ha : a < spaceSize s.cfg sp) (v : Byte) :
    (s.memWrite sp a v).memoryWf := by
  cases sp with
  | pb => exact ⟨Memory.wf_write h.1 ha v, h.2⟩
  | shadow => exact ⟨h.1, Memory.wf_write h.2 ha v⟩
  | fontrom => exact h

/-- The canonical form looks at the two memories and the configuration only. -/
theorem State.memoryWf_congr {s t : State} (hc : t.cfg = s.cfg) (hp : t.pb = s.pb) (hs : t.shadow = s.shadow)
    (h : s.memoryWf) : t.memoryWf := by
  unfold State.memoryWf at *; rw [hc, hp, hs]; exact h

/-- A read looks at the memory of its space and the configuration only. -/
theorem State.memRead_congr {s t : State} (hc : t.cfg = s.cfg) {sp : Space} (h : t.space sp = s.space sp) (a : Nat) :
    t.memRead sp a = s.memRead sp a := by
  unfold State.memRead; rw [hc, h]

/-- Clearing the Text Shadow Buffer: every cell reads a space. -/
theorem State.clearShadow_memRead_shadow (s : State) (a : Nat) :
    s.clearShadow.memRead .shadow a = if a < 32 then 0x20#8 else s.memRead .shadow a := by
  have key : ∀ (l : List Nat) (t : State),
      (l.foldl (fun t i => t.memWrite .shadow i 0x20#8) t).memRead .shadow a
        = if a ∈ l then 0x20#8 else t.memRead .shadow a := by
    intro l
    induction l with
    | nil => simp
    | cons i l ih =>
      intro t
      rw [List.foldl_cons, ih]
      by_cases hi : a = i
      · subst hi
        simp [State.memRead_memWrite_same]
      · simp [hi, State.memRead_memWrite_other t 0x20#8 (.inr hi : Space.shadow ≠ .shadow ∨ a ≠ i)]
  unfold State.clearShadow
  rw [key]; simp

/-- Clearing the Text Shadow Buffer keeps the memories canonical. -/
theorem State.clearShadow_memoryWf {s : State} (h : s.memoryWf) : s.clearShadow.memoryWf := by
  have key : ∀ (l : List Nat) (t : State), t.memoryWf → (∀ i ∈ l, i < 32) →
      (l.foldl (fun t i => t.memWrite .shadow i 0x20#8) t).memoryWf := by
    intro l
    induction l with
    | nil => exact fun t ht _ => ht
    | cons i l ih =>
      intro t ht hl
      exact ih _ (State.memWrite_memoryWf ht (hl i (by simp)) _) fun j hj => hl j (by simp [hj])
  exact key _ _ h fun i hi => List.mem_range.mp hi

end Sys2Proof.Machine
end

