-- ==== Sys2Proof/Laws/Decode.lean ====
section
/-! SUPPORT. The fields of the words the encoder writes, and the five codes of a configuration. -/

namespace Sys2Proof

/-- The bits of a command word, field by field from the lowest (30_encoding.md R71). -/
theorem cmdWord_getLsbD (op : BitVec 4) (on : Bool) (d b a : Byte) (i : Nat) :
    (cmdWord op on d b a).getLsbD i =
      if i < 8 then a.getLsbD i else if i - 8 < 8 then b.getLsbD (i - 8) else if i - 8 - 8 < 8 then d.getLsbD (i - 8 - 8)
      else if i - 8 - 8 - 8 < 1 then (BitVec.ofBool on).getLsbD (i - 8 - 8 - 8)
      else if i - 8 - 8 - 8 - 1 < 3 then (0#3).getLsbD (i - 8 - 8 - 8 - 1) else op.getLsbD (i - 8 - 8 - 8 - 1 - 3) := by
  change (op ++ (0#3 ++ (BitVec.ofBool on ++ (d ++ (b ++ a : BitVec (8 + 8)) : BitVec (8 + (8 + 8))) :
    BitVec (1 + (8 + (8 + 8)))) : BitVec (3 + (1 + (8 + (8 + 8))))) : BitVec (4 + (3 + (1 + (8 + (8 + 8)))))).getLsbD i = _
  simp only [BitVec.getLsbD_append]
  split_ifs <;> first | rfl | omega

@[simp] theorem opField_cmdWord (op : BitVec 4) (on : Bool) (d b a : Byte) : opField (cmdWord op on d b a) = op := by
  refine BitVec.eq_of_getLsbD_eq fun i hi => ?_
  rw [opField, BitVec.getLsbD_extractLsb', cmdWord_getLsbD]
  interval_cases i <;> simp

@[simp] theorem dField_cmdWord (op : BitVec 4) (on : Bool) (d b a : Byte) : dField (cmdWord op on d b a) = d := by
  refine BitVec.eq_of_getLsbD_eq fun i hi => ?_
  rw [dField, BitVec.getLsbD_extractLsb', cmdWord_getLsbD]
  interval_cases i <;> simp

@[simp] theorem bField_cmdWord (op : BitVec 4) (on : Bool) (d b a : Byte) : bField (cmdWord op on d b a) = b := by
  refine BitVec.eq_of_getLsbD_eq fun i hi => ?_
  rw [bField, BitVec.getLsbD_extractLsb', cmdWord_getLsbD]
  interval_cases i <;> simp

@[simp] theorem aField_cmdWord (op : BitVec 4) (on : Bool) (d b a : Byte) : aField (cmdWord op on d b a) = a := by
  refine BitVec.eq_of_getLsbD_eq fun i hi => ?_
  rw [aField, BitVec.getLsbD_extractLsb', cmdWord_getLsbD]
  interval_cases i <;> simp

@[simp] theorem onField_cmdWord (op : BitVec 4) (on : Bool) (d b a : Byte) : onField (cmdWord op on d b a) = on := by
  rw [onField, cmdWord_getLsbD]
  simp

@[simp] theorem keyIst_feedKey (ist : Ist) (c : Byte) : keyIst (feedKey ist c) = ist.code := by
  refine BitVec.eq_of_getLsbD_eq fun i hi => ?_
  change (BitVec.extractLsb' 8 3 (ist.code ++ c : BitVec (3 + 8))).getLsbD i = _
  rw [BitVec.getLsbD_extractLsb', BitVec.getLsbD_append]
  simp [hi]

@[simp] theorem keyByte_feedKey (ist : Ist) (c : Byte) : keyByte (feedKey ist c) = c := by
  refine BitVec.eq_of_getLsbD_eq fun i hi => ?_
  change (BitVec.extractLsb' 0 8 (ist.code ++ c : BitVec (3 + 8))).getLsbD i = _
  rw [BitVec.getLsbD_extractLsb', BitVec.getLsbD_append]
  simp [hi]

@[simp] theorem Ist.ofCode_code (ist : Ist) : Ist.ofCode ist.code = some ist := by
  cases ist <;> rfl

/-- A feed key decodes to the instruction of its class (30_encoding.md R78). -/
theorem decodeKey_feedKey (cfg : Config) (ist : Ist) (c : Byte) :
    decodeKey cfg (feedKey ist c) = .ok ((feedClass cfg ist c).instr c) := by
  simp [decodeKey]

/-- A feed byte's word decodes to FEED of it (30_encoding.md R86). -/
@[simp] theorem decodeWord_feedWord (c : Byte) : decodeWord (feedWord c) = .feed c := by
  simp [decodeWord, feedWord]

/-- The five control codes are pairwise distinct (00_scope.md R11). -/
theorem Config.codes_distinct (cfg : Config) :
    cfg.codeHome ≠ cfg.codeCls ∧
    (cfg.codeHome ≠ 0x1B#8 ∧ cfg.codeHome ≠ 0x0D#8 ∧ cfg.codeHome ≠ 0x0A#8) ∧
    cfg.codeCls ≠ 0x1B#8 ∧ cfg.codeCls ≠ 0x0D#8 ∧ cfg.codeCls ≠ 0x0A#8 := by
  have h := cfg.isLegal
  simp only [ConfigData.legal, ConfigData.codesDistinct, Bool.and_eq_true, decide_eq_true_eq] at h
  have hd := h.1.1.1.1
  simp at hd
  exact ⟨hd.1.1, hd.1.2, hd.2⟩

end Sys2Proof

namespace Sys2Proof.Machine

/-- The font range, as a proposition (42_rasterizer.md R105). -/
theorem inFont_iff (cfg : Config) (c : Byte) : inFont cfg c = true ↔ FontHas cfg c := by
  simp [inFont, FontHas]

/-- A glyph row is read from the Font Table of the configuration (20_memory.md R54). -/
theorem State.glyphRow_eq (s : State) (c : Byte) (r : Nat) : s.glyphRow c r = fontByte s.cfg c r := rfl

/-- A glyph's pixel is a bit of the Font Table (20_memory.md R54). -/
theorem State.glyphBit_eq (s : State) (c : Byte) (r p : Nat) : glyphBit (s.glyphRow c r) p = fontBit s.cfg c r p := rfl

end Sys2Proof.Machine
end

