-- ==== Sys2Proof/Laws/PerInstr.lean ====
section
/-! SUPPORT. The family `MatchesRow`: the encoding of every well-formed instruction lies in its own row of
spec/opcode_table.json, that is, agrees with the row's `match` on the bits of its `mask`. One lemma per constructor. -/

namespace Sys2Proof.Laws.MatchesRow

/-- The `match` and `mask` of a row over command words, and of one over feed keys. -/
inductive Row where
  | word (value mask : CmdWord)
  | key (value mask : FeedKey)
  deriving DecidableEq, Repr

/-- The row of an instruction, as spec/opcode_table.json gives it; the rows IDLE_HOME and IDLE_CLS give their byte as the
parameter. -/
def row (cfg : Config) : Instr → Row
  | .feed _ => .word 0x00000000#32 0xF0000000#32
  | .init => .word 0x10000000#32 0xF0000000#32
  | .setPixel _ _ _ => .word 0x20000000#32 0xF0000000#32
  | .getPixel _ _ => .word 0x30000000#32 0xF0000000#32
  | .renderGlyph _ _ _ => .word 0x40000000#32 0xF0000000#32
  | .redraw => .word 0x50000000#32 0xF0000000#32
  | .readByte _ => .word 0x60000000#32 0xF0000000#32
  | .inspect _ => .word 0x70000000#32 0xF0000000#32
  | .reserved _ => .word 0x80000000#32 0x80000000#32
  | .idleHome => .key (cfg.codeHome.setWidth 11) 0x7FF#11
  | .idleCls => .key (cfg.codeCls.setWidth 11) 0x7FF#11
  | .idleEsc => .key 0x01B#11 0x7FF#11
  | .idleCr => .key 0x00D#11 0x7FF#11
  | .idleLf => .key 0x00A#11 0x7FF#11
  | .idleGlyph _ => .key 0x000#11 0x700#11
  | .aescRowcol => .key 0x13D#11 0x7FF#11
  | .aescCfg => .key 0x121#11 0x7FF#11
  | .aescEol => .key 0x154#11 0x7FF#11
  | .aescDiscard _ => .key 0x100#11 0x700#11
  | .arow _ => .key 0x200#11 0x700#11
  | .acol _ => .key 0x300#11 0x700#11
  | .cinc => .key 0x443#11 0x7FF#11
  | .cdec => .key 0x463#11 0x7FF#11
  | .binc => .key 0x442#11 0x7FF#11
  | .bdec => .key 0x462#11 0x7FF#11
  | .cnop _ => .key 0x400#11 0x700#11

/-- An encoding lies in a row. -/
def Lies : Encoded → Row → Prop
  | .word w, .word value mask => w &&& mask = value
  | .key k, .key value mask => k &&& mask = value
  | _, _ => False

/-- The encoding of the instruction lies in its row, under every configuration. -/
def Statement (i : Instr) : Prop :=
  ∀ cfg : Config, i.wf cfg = true → Lies (encode cfg i) (row cfg i)

/-- The operation field of a written command word. -/
theorem cmdWord_and_op (op : BitVec 4) (on : Bool) (d b a : Byte) :
    cmdWord op on d b a &&& 0xF0000000#32 = op.setWidth 32 <<< 28 := by
  refine BitVec.eq_of_getLsbD_eq fun i hi => ?_
  rw [BitVec.getLsbD_and, cmdWord_getLsbD]
  interval_cases i <;> simp

/-- The top bit of a written command word. -/
theorem cmdWord_and_top (op : BitVec 4) (on : Bool) (d b a : Byte) (h : op.getLsbD 3 = true) :
    cmdWord op on d b a &&& 0x80000000#32 = 0x80000000#32 := by
  refine BitVec.eq_of_getLsbD_eq fun i hi => ?_
  rw [BitVec.getLsbD_and, cmdWord_getLsbD]
  interval_cases i <;> simp [h]

/-- The interpreter state of a written feed key. -/
theorem feedKey_and_ist (ist : Ist) (c : Byte) : feedKey ist c &&& 0x700#11 = ist.code.setWidth 11 <<< 8 := by
  revert c; cases ist <;> decide

/-- The whole of a feed key written in IDLE. -/
theorem feedKey_idle_and (c : Byte) : feedKey .idle c &&& 0x7FF#11 = c.setWidth 11 := by
  revert c; decide

theorem feed (c : Byte) : Statement (.feed c) := fun _ _ => cmdWord_and_op _ _ _ _ _
theorem init : Statement .init := fun _ _ => cmdWord_and_op _ _ _ _ _
theorem setPixel (x y : Byte) (on : Bool) : Statement (.setPixel x y on) := fun _ _ => cmdWord_and_op _ _ _ _ _
theorem getPixel (x y : Byte) : Statement (.getPixel x y) := fun _ _ => cmdWord_and_op _ _ _ _ _
theorem renderGlyph (charCode row column : Byte) : Statement (.renderGlyph charCode row column) :=
  fun _ _ => cmdWord_and_op _ _ _ _ _
theorem redraw : Statement .redraw := fun _ _ => cmdWord_and_op _ _ _ _ _
theorem readByte (addr : Byte) : Statement (.readByte addr) := fun _ _ => cmdWord_and_op _ _ _ _ _
theorem inspect (sel : Byte) : Statement (.inspect sel) := fun _ _ => cmdWord_and_op _ _ _ _ _
theorem reserved (op : BitVec 4) : Statement (.reserved op) := fun _ h =>
  cmdWord_and_top _ _ _ _ _ ((by decide : ∀ op : BitVec 4, isReservedOp op = true → op.getLsbD 3 = true) op h)
theorem idleHome : Statement .idleHome := fun _ _ => feedKey_idle_and _
theorem idleCls : Statement .idleCls := fun _ _ => feedKey_idle_and _
theorem idleEsc : Statement .idleEsc := fun _ _ => feedKey_idle_and _
theorem idleCr : Statement .idleCr := fun _ _ => feedKey_idle_and _
theorem idleLf : Statement .idleLf := fun _ _ => feedKey_idle_and _
theorem idleGlyph (c : Byte) : Statement (.idleGlyph c) := fun _ _ => feedKey_and_ist _ _
theorem aescRowcol : Statement .aescRowcol := fun _ _ => rfl
theorem aescCfg : Statement .aescCfg := fun _ _ => rfl
theorem aescEol : Statement .aescEol := fun _ _ => rfl
theorem aescDiscard (c : Byte) : Statement (.aescDiscard c) := fun _ _ => feedKey_and_ist _ _
theorem arow (c : Byte) : Statement (.arow c) := fun _ _ => feedKey_and_ist _ _
theorem acol (c : Byte) : Statement (.acol c) := fun _ _ => feedKey_and_ist _ _
theorem cinc : Statement .cinc := fun _ _ => rfl
theorem cdec : Statement .cdec := fun _ _ => rfl
theorem binc : Statement .binc := fun _ _ => rfl
theorem bdec : Statement .bdec := fun _ _ => rfl
theorem cnop (c : Byte) : Statement (.cnop c) := fun _ _ => feedKey_and_ist _ _

end Sys2Proof.Laws.MatchesRow
end

