-- ==== Sys2Proof/Laws/Pixels.lean ====
section
/-! SUPPORT. Pixels and glyphs: what `setPixel` and `renderGlyph` leave in the Pixel Buffer, pixel by pixel and byte by
byte. -/

namespace Sys2Proof.Machine

/-- A pixel looks at the Pixel Buffer and the configuration only. -/
theorem State.pixel_congr {s t : State} (hc : t.cfg = s.cfg) (hp : t.pb = s.pb) (x y : Nat) : t.pixel x y = s.pixel x y := by
  unfold State.pixel State.memRead State.space; rw [hc, hp]

@[simp] theorem State.complete_pixel (s : State) (d : Byte) (x y : Nat) : (s.complete d).pixel x y = s.pixel x y := rfl
@[simp] theorem State.raise_pixel (s : State) (f : Status) (x y : Nat) : (s.raise f).pixel x y = s.pixel x y := rfl
@[simp] theorem State.emit_pixel (s : State) (e : Event) (x y : Nat) : (s.emit e).pixel x y = s.pixel x y := rfl
@[simp] theorem State.home_pixel (s : State) (x y : Nat) : s.home.pixel x y = s.pixel x y := rfl
@[simp] theorem State.restoreCursor_pixel (s : State) (r : BitVec 1) (c : BitVec 4) (x y : Nat) :
    (s.restoreCursor r c).pixel x y = s.pixel x y := rfl
@[simp] theorem State.pushConfig_pixel (s : State) (x y : Nat) : s.pushConfig.pixel x y = s.pixel x y := rfl
@[simp] theorem State.advanceAfterGlyph_pixel (s : State) (x y : Nat) :
    s.advanceAfterGlyph.pixel x y = s.pixel x y := State.pixel_congr (by simp) (by simp) x y
@[simp] theorem State.memWrite_shadow_pixel (s : State) (a : Nat) (v : Byte) (x y : Nat) :
    (s.memWrite .shadow a v).pixel x y = s.pixel x y := rfl
@[simp] theorem State.clearShadow_pixel (s : State) (x y : Nat) : s.clearShadow.pixel x y = s.pixel x y :=
  State.pixel_congr (by simp) (by simp) x y

@[simp] theorem State.complete_memoryWf (s : State) (d : Byte) : (s.complete d).memoryWf ↔ s.memoryWf := Iff.rfl
@[simp] theorem State.raise_memoryWf (s : State) (f : Status) : (s.raise f).memoryWf ↔ s.memoryWf := Iff.rfl
@[simp] theorem State.emit_memoryWf (s : State) (e : Event) : (s.emit e).memoryWf ↔ s.memoryWf := Iff.rfl
@[simp] theorem State.home_memoryWf (s : State) : s.home.memoryWf ↔ s.memoryWf := Iff.rfl
@[simp] theorem State.pushConfig_memoryWf (s : State) : s.pushConfig.memoryWf ↔ s.memoryWf := Iff.rfl

theorem pbMask_getLsbD (x k : Nat) : (pbMask x).getLsbD k = decide (k = 7 - x % 8) := by
  have hn : x % 8 < 8 := Nat.mod_lt _ (by decide)
  unfold pbMask
  generalize x % 8 = n at hn
  by_cases hk : k < 8
  · have : ∀ n < 8, ∀ k < 8, (0x80#8 >>> n).getLsbD k = decide (k = 7 - n) := by decide
    exact this n hn k hk
  · rw [BitVec.getLsbD_of_ge _ _ (by omega)]
    exact (decide_eq_false (by omega)).symm

theorem and_pbMask_ne_zero (b : Byte) (x : Nat) : decide (b &&& pbMask x ≠ 0#8) = b.getLsbD (7 - x % 8) := by
  have hn : x % 8 < 8 := Nat.mod_lt _ (by decide)
  by_cases h : b &&& pbMask x = 0#8
  · have := congrArg (fun v => v.getLsbD (7 - x % 8)) h
    simp [pbMask_getLsbD] at this
    simp [h, this]
  · have : ∃ k, (b &&& pbMask x).getLsbD k = true := by
      by_contra hc
      push Not at hc
      exact h (BitVec.eq_of_getLsbD_eq fun k _ => by simpa using hc k)
    obtain ⟨k, hk⟩ := this
    rw [BitVec.getLsbD_and, pbMask_getLsbD] at hk
    simp at hk
    simp [h, ← hk.2, hk.1]

/-- `getPixel` inside the buffer reads the pixel's bit (20_memory.md R50, R51). -/
theorem State.getPixel_eq_pixel (s : State) {x y : Nat} (hx : x < 96) (hy : y < 16) : s.getPixel x y = s.pixel x y := by
  unfold State.getPixel State.pixel
  rw [if_neg (by omega), and_pbMask_ne_zero]
  rfl

/-- `getPixel` outside the buffer reads 0 (41_pixel_buffer.md R98). -/
theorem State.getPixel_of_clipped (s : State) {x y : Nat} (h : 96 ≤ x ∨ 16 ≤ y) : s.getPixel x y = false := by
  unfold State.getPixel
  rw [if_pos h]

/-- A bit of a `PB` byte is a pixel (20_memory.md R53). -/
theorem State.memRead_pb_getLsbD (s : State) (a : Nat) {k : Nat} (hk : k < 8) :
    (s.memRead .pb a).getLsbD k = s.pixel (8 * (a % 12) + (7 - k)) (a / 12) := by
  unfold State.pixel
  have h1 : a / 12 * 12 + (8 * (a % 12) + (7 - k)) / 8 = a := by omega
  have h2 : 7 - (8 * (a % 12) + (7 - k)) % 8 = k := by omega
  rw [h1, h2]

/-- A `PB` byte whose pixels are unchanged is unchanged. -/
theorem State.memRead_pb_eq_of_pixels {s t : State} (a : Nat)
    (h : ∀ x, x / 8 = a % 12 → x < 96 → t.pixel x (a / 12) = s.pixel x (a / 12)) : t.memRead .pb a = s.memRead .pb a := by
  refine BitVec.eq_of_getLsbD_eq fun k hk => ?_
  rw [State.memRead_pb_getLsbD t a hk, State.memRead_pb_getLsbD s a hk]
  exact h _ (by omega) (by omega)

theorem State.setPixel_of_clipped (s : State) {x y : Nat} (on : Bool) (h : 96 ≤ x ∨ 16 ≤ y) : s.setPixel x y on = s := by
  unfold State.setPixel
  rw [if_pos h]

/-- `setPixel` is one byte write, inside the buffer (41_pixel_buffer.md R96). -/
theorem State.setPixel_eq_memWrite (s : State) {x y : Nat} (on : Bool) (hx : x < 96) (hy : y < 16) :
    s.setPixel x y on = s.memWrite .pb (y * 12 + x / 8)
      (if on then s.memRead .pb (y * 12 + x / 8) ||| pbMask x else s.memRead .pb (y * 12 + x / 8) &&& ~~~(pbMask x)) := by
  unfold State.setPixel
  rw [if_neg (by omega)]
  rfl

/-- `setPixel` changes the bit of its pixel and no other (41_pixel_buffer.md R96, R97). -/
theorem State.pixel_setPixel (s : State) (x y : Nat) (on : Bool) {x' : Nat} (y' : Nat) (hx' : x' < 96) :
    (s.setPixel x y on).pixel x' y' = if x' = x ∧ y' = y ∧ y < 16 then on else s.pixel x' y' := by
  by_cases hc : x < 96 ∧ y < 16
  · obtain ⟨hx, hy⟩ := hc
    rw [State.setPixel_eq_memWrite s on hx hy]
    unfold State.pixel
    by_cases ha : y' * 12 + x' / 8 = y * 12 + x / 8
    · have h1 : y' = y ∧ x' / 8 = x / 8 := by omega
      rw [ha, State.memRead_memWrite_same _ (by decide)]
      by_cases hxx : x' = x
      · subst hxx
        have : 7 - x' % 8 < 8 := by omega
        cases on <;> simp [pbMask_getLsbD, h1.1, hy, this]
      · have h2 : ¬ (7 - x' % 8 = 7 - x % 8) := by omega
        have h3 : (pbMask x)[7 - x' % 8] = false := by rw [← BitVec.getLsbD_eq_getElem, pbMask_getLsbD]; simp [h2]
        have h4 : 7 - x' % 8 < 8 := by omega
        cases on <;> simp [hxx, h3, h4]
    · rw [State.memRead_memWrite_other _ _ (.inr ha), if_neg]
      rintro ⟨rfl, rfl, -⟩
      exact ha rfl
  · rw [State.setPixel_of_clipped s on (by omega), if_neg]
    omega

/-- `setPixel` changes no byte but its pixel's. -/
theorem State.setPixel_memRead_pb_other (s : State) (x y : Nat) (on : Bool) {b : Nat} (h : b ≠ y * 12 + x / 8 ∨ 192 ≤ b) :
    (s.setPixel x y on).memRead .pb b = s.memRead .pb b := by
  by_cases hc : x < 96 ∧ y < 16
  · rw [State.setPixel_eq_memWrite s on hc.1 hc.2, State.memRead_memWrite_other _ _ (.inr _)]
    omega
  · rw [State.setPixel_of_clipped s on (by omega)]

/-- `setPixel` keeps the memories canonical. -/
theorem State.setPixel_memoryWf {s : State} (h : s.memoryWf) (x y : Nat) (on : Bool) : (s.setPixel x y on).memoryWf := by
  by_cases hc : x < 96 ∧ y < 16
  · rw [State.setPixel_eq_memWrite s on hc.1 hc.2]
    exact State.memWrite_memoryWf h (show _ < 192 by omega) _
  · rw [State.setPixel_of_clipped s on (by omega)]; exact h

/-- Two states in canonical form that differ at most in the Pixel Buffer, and read alike there, are the same state. -/
theorem State.eq_of_memRead_pb {s t : State} (hs : s.memoryWf) (ht : t.memoryWf) (hfr : t = { s with pb := t.pb })
    (h : ∀ a, a < 192 → t.memRead .pb a = s.memRead .pb a) : t = s := by
  have hc : t.cfg = s.cfg := by rw [hfr]
  have hpb : t.pb = s.pb := by
    have h1 := ht.1
    rw [hc] at h1
    refine Memory.eq_of_read_eq h1 hs.1 fun a ha => ?_
    simpa [State.memRead, State.space, hc] using h a ha
  rw [hfr, hpb]

/-- Two states in canonical form that differ at most in the Pixel Buffer, and show the same pixels, are the same state. -/
theorem State.eq_of_pixels {s t : State} (hs : s.memoryWf) (ht : t.memoryWf) (hfr : t = { s with pb := t.pb })
    (h : ∀ x y, x < 96 → y < 16 → t.pixel x y = s.pixel x y) : t = s :=
  State.eq_of_memRead_pb hs ht hfr fun a ha =>
    State.memRead_pb_eq_of_pixels a fun x _ hx => h x (a / 12) hx (by omega)

/-- `setPixel` changes nothing but the Pixel Buffer. -/
theorem State.setPixel_eq (s : State) (x y : Nat) (on : Bool) : s.setPixel x y on = { s with pb := (s.setPixel x y on).pb } := by
  unfold State.setPixel; split <;> rfl

/-! ### Glyphs -/

@[simp] theorem State.drawGlyphRow_glyphRow (s : State) (b : Byte) (r row column : Nat) (c : Byte) (r' : Nat) :
    (s.drawGlyphRow b r row column).glyphRow c r' = s.glyphRow c r' := by simp [State.glyphRow]

@[simp] theorem State.drawGlyph_glyphRow (s : State) (c : Byte) (row column : Nat) (c' : Byte) (r' : Nat) :
    (s.drawGlyph c row column).glyphRow c' r' = s.glyphRow c' r' := by simp [State.glyphRow]

@[simp] theorem State.memWrite_glyphRow (s : State) (sp : Space) (a : Nat) (v : Byte) (c : Byte) (r : Nat) :
    (s.memWrite sp a v).glyphRow c r = s.glyphRow c r := by simp [State.glyphRow]

/-- The glyphs depend on the configuration only. -/
theorem State.glyphRow_congr {s t : State} (h : t.cfg = s.cfg) (c : Byte) (r : Nat) : t.glyphRow c r = s.glyphRow c r := by
  unfold State.glyphRow State.memRead; rw [h]; rfl

theorem State.pixel_drawGlyphRow (s : State) (b : Byte) (r row column : Nat) (hy : row * 8 + r < 16) {x : Nat} (y : Nat)
    (hx : x < 96) :
    (s.drawGlyphRow b r row column).pixel x y =
      if y = row * 8 + r ∧ column * 6 ≤ x ∧ x < column * 6 + 6 then glyphBit b (x - column * 6) else s.pixel x y := by
  have key : ∀ (l : List Nat) (t : State),
      (l.foldl (fun t p => t.setPixel (column * 6 + p) (row * 8 + r) (glyphBit b p)) t).pixel x y =
        if y = row * 8 + r ∧ column * 6 ≤ x ∧ x - column * 6 ∈ l then glyphBit b (x - column * 6) else t.pixel x y := by
    intro l
    induction l with
    | nil => simp
    | cons p l ih =>
      intro t
      rw [List.foldl_cons, ih, State.pixel_setPixel _ _ _ _ _ hx]
      by_cases h1 : y = row * 8 + r ∧ column * 6 ≤ x
      · by_cases h2 : x = column * 6 + p
        · simp [h1, h2]
          omega
        · have h3 : x - column * 6 ≠ p := by omega
          simp [h1, h2, h3]
      · have h2 : ¬ (x = column * 6 + p ∧ y = row * 8 + r ∧ row * 8 + r < 16) := by omega
        rw [if_neg (by tauto), if_neg h2, if_neg (by tauto)]
  unfold State.drawGlyphRow
  rw [key]
  congr 1
  simp
  omega

/-- What drawing a glyph leaves in the Pixel Buffer: the glyph in its cell, every other pixel as before
(42_rasterizer.md R107). -/
theorem State.pixel_drawGlyph (s : State) (c : Byte) {row column : Nat} (hr : row < 2) {x : Nat} (y : Nat) (hx : x < 96) :
    (s.drawGlyph c row column).pixel x y =
      if column * 6 ≤ x ∧ x < column * 6 + 6 ∧ row * 8 ≤ y ∧ y < row * 8 + 8 then
        glyphBit (s.glyphRow c (y - row * 8)) (x - column * 6)
      else s.pixel x y := by
  have key : ∀ (l : List Nat) (t : State), (∀ r ∈ l, r < 8) →
      (l.foldl (fun t r => t.drawGlyphRow (t.glyphRow c r) r row column) t).pixel x y =
        if column * 6 ≤ x ∧ x < column * 6 + 6 ∧ row * 8 ≤ y ∧ y - row * 8 ∈ l then
          glyphBit (t.glyphRow c (y - row * 8)) (x - column * 6)
        else t.pixel x y := by
    intro l
    induction l with
    | nil => simp
    | cons r l ih =>
      intro t hl
      have hr8 := hl r (by simp)
      rw [List.foldl_cons, ih _ fun q hq => hl q (by simp [hq]), State.pixel_drawGlyphRow _ _ _ _ _ (by omega) _ hx,
        State.drawGlyphRow_glyphRow]
      by_cases h1 : column * 6 ≤ x ∧ x < column * 6 + 6 ∧ row * 8 ≤ y
      · obtain ⟨ha, hb, hc⟩ := h1
        by_cases h2 : y = row * 8 + r
        · subst h2
          simp [ha, hb]
        · have h3 : y - row * 8 ≠ r := by omega
          simp [ha, hb, hc, h2, h3]
      · rw [if_neg (by tauto), if_neg (by omega), if_neg (by tauto)]
  unfold State.drawGlyph
  rw [key _ _ fun r hr => List.mem_range.mp hr]
  congr 1
  simp
  omega

/-- Drawing a glyph changes nothing but the Pixel Buffer. -/
theorem State.drawGlyph_eq (s : State) (c : Byte) (row column : Nat) :
    s.drawGlyph c row column = { s with pb := (s.drawGlyph c row column).pb } := by
  have h : ∀ t : State, t = ⟨t.cfg, t.ist, t.crow, t.ccol, t.contrast, t.brightness, t.fault, t.shadow, t.pb, t.ev,
    t.result, t.pending⟩ := fun _ => rfl
  rw [h (s.drawGlyph c row column)]
  simp

theorem State.drawGlyph_memoryWf {s : State} (h : s.memoryWf) (c : Byte) (row column : Nat) :
    (s.drawGlyph c row column).memoryWf := by
  have fold : ∀ {α : Type} (g : State → α → State) (_ : ∀ t x, t.memoryWf → (g t x).memoryWf) (l : List α) (t : State),
      t.memoryWf → (l.foldl g t).memoryWf := by
    intro α g hg l
    induction l with
    | nil => exact fun t ht => ht
    | cons x l ih => exact fun t ht => ih _ (hg t x ht)
  exact fold _ (fun t r ht => fold _ (fun u p hu => State.setPixel_memoryWf hu _ _ _) _ _ ht) _ _ h

/-- Drawing a glyph changes no byte above the buffer. -/
theorem State.drawGlyph_memRead_pb_ge (s : State) (c : Byte) (row column : Nat) {b : Nat} (h : 192 ≤ b) :
    (s.drawGlyph c row column).memRead .pb b = s.memRead .pb b :=
  foldl_keeps (fun t => t.memRead .pb b) _
    (fun _ _ => foldl_keeps (fun t => t.memRead .pb b) _ (fun _ _ => State.setPixel_memRead_pb_other _ _ _ _ (.inr h)) _ _) _ _

/-- `renderGlyph`, all it can do (42_rasterizer.md R106): nothing where the cell is clipped, the glyph where the code is in
the font, `GLYPH_RANGE` otherwise. -/
theorem State.renderGlyph_cases (s : State) (c : Byte) (row column : Nat) :
    ((2 ≤ row ∨ 16 ≤ column) ∧ s.renderGlyph c row column = .ok s) ∨
    (row < 2 ∧ column < 16 ∧ inFont s.cfg c = true ∧ s.renderGlyph c row column = .ok (s.drawGlyph c row column)) ∨
    (row < 2 ∧ column < 16 ∧ inFont s.cfg c = false ∧ s.renderGlyph c row column = .error .glyphRange) := by
  unfold State.renderGlyph
  by_cases h : 2 ≤ row ∨ 16 ≤ column
  · left
    simp [h]
  · right
    push Not at h
    cases hf : inFont s.cfg c <;> simp [h.1, h.2, Nat.not_le.mpr h.1, Nat.not_le.mpr h.2]

theorem State.renderGlyph_of_inFont (s : State) {c : Byte} {row column : Nat} (hr : row < 2) (hc : column < 16)
    (hf : inFont s.cfg c = true) : s.renderGlyph c row column = .ok (s.drawGlyph c row column) := by
  rcases s.renderGlyph_cases c row column with h | h | h
  · omega
  · exact h.2.2.2
  · simp [hf] at h

/-! ### The space -/

/-- The space is in every font (00_scope.md R12). -/
theorem inFont_space (cfg : Config) : inFont cfg 0x20#8 = true := by
  have h := cfg.isLegal
  simp only [ConfigData.legal, ConfigData.fontLastInRange, Bool.and_eq_true, decide_eq_true_eq] at h
  simpa [inFont] using h.1.1.1.2

/-- The space glyph is blank (00_scope.md R12). -/
theorem State.glyphBit_space (s : State) {r p : Nat} (hr : r < 8) (hp : p < 6) :
    glyphBit (s.glyphRow 0x20#8 r) p = false := by
  have h := s.cfg.isLegal
  simp only [ConfigData.legal, ConfigData.spaceBlank, ConfigData.fontSized, ConfigData.fontLastInRange, Bool.and_eq_true,
    decide_eq_true_eq, List.all_eq_true] at h
  obtain ⟨⟨⟨⟨-, hl⟩, hn⟩, hb⟩, -⟩ := h
  have hlen : r < s.cfg.font.length := by omega
  have hg : s.glyphRow 0x20#8 r = s.cfg.font[r] := by
    simp [State.glyphRow, State.memRead, State.space, Memory.read, Memory.lookup, unlisted, glyphAddr, hlen]
  have hz := hb s.cfg.font[r] (List.mem_take_iff_getElem.mpr ⟨r, by omega, rfl⟩)
  have hk := congrArg (fun v => v.getLsbD (7 - p)) hz
  have hmask : ∀ p < 6, (0xFC#8).getLsbD (7 - p) = true := by decide
  rw [hg, glyphBit]
  simpa [hmask p hp] using hk

end Sys2Proof.Machine
end

