-- ==== Sys2Proof/Laws/Text.lean ====
section
/-! SUPPORT. The text procedures: what `displayGlyph`, `clearToEndOfLine`, `redraw` and `fullClear` do, each said once. A
result state is given as the old one with the fields named that may differ. -/

namespace Sys2Proof.Machine

theorem row_lt (r : BitVec 1) : r.toNat < 2 := by have := r.isLt; simpa using this
theorem column_lt (c : BitVec 4) : c.toNat < 16 := by have := c.isLt; simpa using this

theorem State.advanceAfterGlyph_of_lt (s : State) (h : s.ccol.toNat < 15) :
    s.advanceAfterGlyph = { s with ccol := s.ccol + 1#4 } := by
  unfold State.advanceAfterGlyph
  rw [if_neg]
  intro h'
  rw [h'] at h
  exact absurd h (by decide)

/-! ### displayGlyph -/

/-- `displayGlyph` of a code in the font (44_interpreter.md R152). -/
theorem State.displayGlyph_of_inFont (s : State) {c : Byte} (h : inFont s.cfg c = true) :
    s.displayGlyph c = .ok ((s.memWrite .shadow (cellAddr s.crow.toNat s.ccol.toNat) c).drawGlyph c s.crow.toNat
      s.ccol.toNat).advanceAfterGlyph := by
  unfold State.displayGlyph
  rw [if_pos h, State.renderGlyph_of_inFont _ (row_lt _) (column_lt _) (by simpa using h)]

/-- `displayGlyph` of any other code raises `GLYPH_RANGE` (44_interpreter.md R152). -/
theorem State.displayGlyph_of_not_inFont (s : State) {c : Byte} (h : inFont s.cfg c = false) :
    s.displayGlyph c = .error .glyphRange := by
  unfold State.displayGlyph; simp [h]

/-! ### clearToEndOfLine -/

/-- Displaying `n` spaces inside the row of the cursor. -/
theorem State.displaySpaces_spec (n : Nat) (s : State) (hn : s.ccol.toNat + n ≤ 16) :
    ∃ t, s.displaySpaces n = .ok t ∧
      t = { s with crow := t.crow, ccol := t.ccol, shadow := t.shadow, pb := t.pb } ∧
      (∀ a, t.memRead .shadow a =
        if s.crow.toNat * 16 + s.ccol.toNat ≤ a ∧ a < s.crow.toNat * 16 + s.ccol.toNat + n then 0x20#8
        else s.memRead .shadow a) ∧
      (∀ x y, x < 96 → t.pixel x y =
        if s.ccol.toNat * 6 ≤ x ∧ x < (s.ccol.toNat + n) * 6 ∧ s.crow.toNat * 8 ≤ y ∧ y < s.crow.toNat * 8 + 8 then false
        else s.pixel x y) ∧
      (∀ b, 192 ≤ b → t.memRead .pb b = s.memRead .pb b) ∧
      (s.memoryWf → t.memoryWf) := by
  induction n generalizing s with
  | zero =>
    refine ⟨s, rfl, rfl, fun a => ?_, fun x y _ => ?_, fun _ _ => rfl, id⟩
    · rw [if_neg]; omega
    · rw [if_neg]; omega
  | succ n ih =>
    have hr := row_lt s.crow
    have hc := column_lt s.ccol
    let u := (s.memWrite .shadow (cellAddr s.crow.toNat s.ccol.toNat) 0x20#8).drawGlyph 0x20#8 s.crow.toNat s.ccol.toNat
    have hd : s.displayGlyph 0x20#8 = .ok u.advanceAfterGlyph := s.displayGlyph_of_inFont (inFont_space _)
    have hucfg : u.cfg = s.cfg := by simp [u]
    have hush : ∀ a, u.memRead .shadow a =
        if a = s.crow.toNat * 16 + s.ccol.toNat then 0x20#8 else s.memRead .shadow a := by
      intro a
      simp only [u, State.drawGlyph_memRead_shadow]
      by_cases ha : a = s.crow.toNat * 16 + s.ccol.toNat
      · rw [if_pos ha, ha]; exact State.memRead_memWrite_same _ (by decide) _ _
      · rw [if_neg ha]; exact State.memRead_memWrite_other _ _ (.inr ha)
    have hupx : ∀ x y, x < 96 → u.pixel x y =
        if s.ccol.toNat * 6 ≤ x ∧ x < s.ccol.toNat * 6 + 6 ∧ s.crow.toNat * 8 ≤ y ∧ y < s.crow.toNat * 8 + 8 then false
        else s.pixel x y := by
      intro x y hx
      simp only [u]
      rw [State.pixel_drawGlyph _ _ hr _ hx]
      split
      · rw [State.glyphBit_space _ (by omega) (by omega)]
      · rfl
    have hwf : s.memoryWf → u.memoryWf := fun h =>
      State.drawGlyph_memoryWf (State.memWrite_memoryWf h (show _ < 32 by simp only [cellAddr]; omega) _) _ _ _
    have hge : ∀ b, 192 ≤ b → u.memRead .pb b = s.memRead .pb b := fun b hb => by
      simp only [u]; rw [State.drawGlyph_memRead_pb_ge _ _ _ _ hb]; rfl
    simp only [State.displaySpaces, hd]
    cases n with
    | zero =>
      refine ⟨u.advanceAfterGlyph, rfl, ?_, fun a => ?_, fun x y hx => ?_, fun b hb => ?_, fun h => ?_⟩
      · ext1 <;> simp [u]
      · rw [State.advanceAfterGlyph_memRead, hush]
        congr 1; simp; omega
      · rw [State.advanceAfterGlyph_pixel, hupx _ _ hx]
        congr 1; simp; omega
      · rw [State.advanceAfterGlyph_memRead, hge b hb]
      · exact State.memoryWf_congr (by simp) (by simp) (by simp) (hwf h)
    | succ n =>
      have hadv : u.advanceAfterGlyph = { u with ccol := u.ccol + 1#4 } :=
        State.advanceAfterGlyph_of_lt u (by simp only [u, State.drawGlyph_ccol, State.memWrite_ccol]; omega)
      have hcc : u.advanceAfterGlyph.ccol.toNat = s.ccol.toNat + 1 := by
        rw [hadv]; simp only [u, State.drawGlyph_ccol, State.memWrite_ccol, BitVec.toNat_add]
        have := column_lt s.ccol
        rw [Nat.mod_eq_of_lt (by simp; omega)]; simp
      have hcr : u.advanceAfterGlyph.crow = s.crow := by rw [hadv]; simp [u]
      obtain ⟨t, ht, hfr, hsh, hpx, hb, hw⟩ := ih u.advanceAfterGlyph (by omega)
      refine ⟨t, ht, ?_, fun a => ?_, fun x y hx => ?_, fun b hb' => ?_, fun h => ?_⟩
      · rw [hfr]; ext1 <;> simp [u]
      · rw [hsh a, hcr, hcc, State.advanceAfterGlyph_memRead, hush]
        split_ifs <;> first | rfl | omega
      · rw [hpx x y hx, hcr, hcc, State.advanceAfterGlyph_pixel, hupx x y hx]
        split_ifs <;> first | rfl | omega
      · rw [hb b hb', State.advanceAfterGlyph_memRead, hge b hb']
      · exact hw (State.memoryWf_congr (by simp) (by simp) (by simp) (hwf h))

/-- `clearToEndOfLine` never raises: it blanks the cells from the cursor to the end of its row and changes nothing else
(44_interpreter.md R155, R156). -/
theorem State.clearToEndOfLine_spec (s : State) :
    ∃ t, s.clearToEndOfLine = .ok t ∧
      t = { s with shadow := t.shadow, pb := t.pb } ∧
      (∀ a, t.memRead .shadow a =
        if s.crow.toNat * 16 + s.ccol.toNat ≤ a ∧ a < s.crow.toNat * 16 + 16 then 0x20#8 else s.memRead .shadow a) ∧
      (∀ x y, x < 96 → t.pixel x y =
        if s.ccol.toNat * 6 ≤ x ∧ s.crow.toNat * 8 ≤ y ∧ y < s.crow.toNat * 8 + 8 then false else s.pixel x y) ∧
      (∀ b, 192 ≤ b → t.memRead .pb b = s.memRead .pb b) ∧
      (s.memoryWf → t.memoryWf) := by
  have hc := column_lt s.ccol
  obtain ⟨t, ht, hfr, hsh, hpx, hb, hw⟩ := s.displaySpaces_spec (16 - s.ccol.toNat) (by omega)
  refine ⟨t.restoreCursor s.crow s.ccol, by simp [State.clearToEndOfLine, ht], ?_, fun a => ?_, fun x y hx => ?_,
    fun b hb' => ?_, fun h => ?_⟩
  · rw [hfr]; rfl
  · rw [State.restoreCursor_memRead, hsh a]
    congr 1; simp; omega
  · rw [State.restoreCursor_pixel, hpx x y hx]
    congr 1; simp; omega
  · rw [State.restoreCursor_memRead, hb b hb']
  · exact State.memoryWf_congr (s := t) rfl rfl rfl (hw h)

/-! ### redraw -/

/-- Rendering a list of cells whose codes are all in the font. -/
theorem State.renderCells_spec (cells : List (Nat × Nat)) (s : State) (hg : ∀ q ∈ cells, q.1 < 2 ∧ q.2 < 16)
    (hf : ∀ q ∈ cells, inFont s.cfg (s.memRead .shadow (cellAddr q.1 q.2)) = true) :
    ∃ t, s.renderCells cells = .ok t ∧ t = { s with pb := t.pb } ∧
      (∀ x y, x < 96 → t.pixel x y =
        if (y / 8, x / 6) ∈ cells then
          glyphBit (s.glyphRow (s.memRead .shadow (cellAddr (y / 8) (x / 6))) (y % 8)) (x % 6)
        else s.pixel x y) ∧
      (∀ b, 192 ≤ b → t.memRead .pb b = s.memRead .pb b) ∧
      (s.memoryWf → t.memoryWf) := by
  induction cells generalizing s with
  | nil => exact ⟨s, rfl, rfl, by simp, fun _ _ => rfl, id⟩
  | cons q cells ih =>
    obtain ⟨row, column⟩ := q
    obtain ⟨hr, hc⟩ := hg (row, column) (by simp)
    let u := s.drawGlyph (s.memRead .shadow (cellAddr row column)) row column
    have hd : s.renderGlyph (s.memRead .shadow (cellAddr row column)) row column = .ok u :=
      s.renderGlyph_of_inFont hr hc (hf (row, column) (by simp))
    obtain ⟨t, ht, hfr, hpx, hb, hw⟩ := ih u (fun q hq => hg q (by simp [hq]))
      (fun q hq => by simpa [u] using hf q (by simp [hq]))
    refine ⟨t, by simp only [State.renderCells, hd]; exact ht, ?_, fun x y hx => ?_, fun b hb' => ?_, fun h => ?_⟩
    · rw [hfr]; ext1 <;> simp [u]
    · rw [hpx x y hx]
      simp only [u, State.drawGlyph_memRead_shadow, State.drawGlyph_glyphRow, List.mem_cons, Prod.mk.injEq]
      by_cases h1 : (y / 8, x / 6) ∈ cells
      · simp [h1]
      · rw [State.pixel_drawGlyph _ _ hr _ hx]
        by_cases h2 : y / 8 = row ∧ x / 6 = column
        · obtain ⟨rfl, rfl⟩ := h2
          rw [if_neg h1, if_pos (by omega), if_pos (by simp)]
          congr 2 <;> omega
        · rw [if_neg h1, if_neg (by omega), if_neg (by simp [h1, h2])]
    · rw [hb b hb']; exact State.drawGlyph_memRead_pb_ge _ _ _ _ hb'
    · exact hw (State.drawGlyph_memoryWf h _ _ _)

/-- A cell whose code is not in the font stops the rendering. -/
theorem State.renderCells_error (cells : List (Nat × Nat)) (s : State) (hg : ∀ q ∈ cells, q.1 < 2 ∧ q.2 < 16)
    (hf : ∃ q ∈ cells, inFont s.cfg (s.memRead .shadow (cellAddr q.1 q.2)) = false) :
    s.renderCells cells = .error .glyphRange := by
  induction cells generalizing s with
  | nil => simp at hf
  | cons q cells ih =>
    obtain ⟨row, column⟩ := q
    obtain ⟨hr, hc⟩ := hg (row, column) (by simp)
    simp only [State.renderCells]
    rcases s.renderGlyph_cases (s.memRead .shadow (cellAddr row column)) row column with h | h | h
    · omega
    · rw [h.2.2.2]
      refine ih _ (fun q hq => hg q (by simp [hq])) ?_
      obtain ⟨q, hq, hn⟩ := hf
      rcases List.mem_cons.mp hq with rfl | hq
      · simp [h.2.2.1] at hn
      · exact ⟨q, hq, by simpa using hn⟩
    · rw [h.2.2.2]

theorem mem_allCells {row column : Nat} : (row, column) ∈ allCells ↔ row < 2 ∧ column < 16 := by
  simp [allCells]

/-- `redraw` over in-font codes renders every cell and changes nothing else (45_redraw_init.md R160, R161). -/
theorem State.redraw_spec (s : State) (h : s.shadowInFont) :
    ∃ t, s.redraw = .ok t ∧ t = { s with pb := t.pb } ∧
      (∀ x y, x < 96 → y < 16 → t.pixel x y =
        glyphBit (s.glyphRow (s.memRead .shadow (cellAddr (y / 8) (x / 6))) (y % 8)) (x % 6)) ∧
      (∀ b, 192 ≤ b → t.memRead .pb b = s.memRead .pb b) ∧
      (s.memoryWf → t.memoryWf) := by
  obtain ⟨t, ht, hfr, hpx, hb, hw⟩ := s.home.renderCells_spec allCells (fun q hq => mem_allCells.mp hq)
    (fun q hq => by
      have := mem_allCells.mp hq
      exact h _ (by simp only [cellAddr]; omega))
  refine ⟨t.restoreCursor s.crow s.ccol, by simp [State.redraw, ht], ?_, fun x y hx hy => ?_, fun b hb' => ?_, fun hs => ?_⟩
  · rw [hfr]; rfl
  · rw [State.restoreCursor_pixel, hpx x y hx, if_pos (mem_allCells.mpr (by omega))]
    rfl
  · rw [State.restoreCursor_memRead, hb b hb']; rfl
  · exact State.memoryWf_congr (s := t) rfl rfl rfl (hw (State.memoryWf_congr (s := s) rfl rfl rfl hs))

/-- `redraw` raises where a code is not in the font, which no run reaches. -/
theorem State.redraw_error (s : State) (h : ¬ s.shadowInFont) : s.redraw = .error .glyphRange := by
  have : s.home.renderCells allCells = .error .glyphRange := by
    refine State.renderCells_error _ _ (fun q hq => mem_allCells.mp hq) ?_
    unfold State.shadowInFont at h
    push Not at h
    obtain ⟨a, ha, hn⟩ := h
    refine ⟨(a / 16, a % 16), mem_allCells.mpr (by omega), ?_⟩
    have : cellAddr (a / 16) (a % 16) = a := by simp only [cellAddr]; omega
    simpa [this] using hn
  simp [State.redraw, this]

/-! ### fullClear -/

/-- `fullClear` never raises: all codes become spaces, all pixels 0, the cursor goes home, and one event is emitted
(45_redraw_init.md R163, R164). -/
theorem State.fullClear_spec (s : State) :
    ∃ t, s.fullClear = .ok t ∧
      t = { s with crow := 0#1, ccol := 0#4, shadow := t.shadow, pb := t.pb,
                   ev := s.ev ++ [.deviceInit s.contrast s.brightness] } ∧
      (∀ a, t.memRead .shadow a = if a < 32 then 0x20#8 else s.memRead .shadow a) ∧
      (∀ b, t.memRead .pb b = if b < 192 then 0#8 else s.memRead .pb b) ∧
      (s.memoryWf → t.memoryWf) := by
  have hu : ∃ u, u = (s.emit (.deviceInit s.contrast s.brightness)).clearShadow := ⟨_, rfl⟩
  obtain ⟨u, hu⟩ := hu
  have hsh : ∀ a, u.memRead .shadow a = if a < 32 then 0x20#8 else s.memRead .shadow a := fun a => by
    rw [hu, State.clearShadow_memRead_shadow, State.emit_memRead]
  have hin : u.shadowInFont := fun a ha => by
    rw [hsh a, if_pos ha]; exact inFont_space _
  obtain ⟨t, ht, hfr, hpx, hb, hw⟩ := u.redraw_spec hin
  have hcfg : t.cfg = u.cfg := by rw [hfr]
  have hshadow : t.shadow = u.shadow := by rw [hfr]
  refine ⟨t.home, ?_, ?_, fun a => ?_, fun b => ?_, fun h => ?_⟩
  · unfold State.fullClear
    rw [← hu, ht]
  · rw [hfr]; ext1 <;> simp [hu]
  · rw [State.home_memRead, State.memRead_congr hcfg (show t.space .shadow = u.space .shadow from hshadow), hsh]
  · rw [State.home_memRead]
    split
    · rename_i hlt
      refine BitVec.eq_of_getLsbD_eq fun k hk => ?_
      rw [State.memRead_pb_getLsbD t b hk, hpx _ _ (by omega) (by omega), hsh, if_pos (by simp only [cellAddr]; omega),
        State.glyphBit_space _ (by omega) (by omega)]
      simp
    · rename_i hge
      rw [hb b (by omega)]
      simp [hu]
  · exact State.memoryWf_congr (s := t) rfl rfl rfl
      (hw (hu ▸ State.clearShadow_memoryWf (State.memoryWf_congr (s := s) rfl rfl rfl h)))

end Sys2Proof.Machine
end

