-- ==== Sys2Proof/Tests/Slice0.lean ====
section
/-! SUPPORT. Tests of the model, each of one step or less. The expected results are those of 95_test_vectors.md, under its
fixture configuration; the words and keys are written out from the tables of 30_encoding.md. The `witness_` theorems show
a state and operands that meet the hypotheses of a statement of the same name, at the ends of each clause's range. -/

namespace Sys2Proof.Tests

open Sys2Proof.Machine

set_option Elab.async false

/-! ### The fixture (95_test_vectors.md section 1) -/

/-- The font of the fixture: a blank space, `'A'`, a full cell at 0x7E, and zeros where no vector looks. -/
def fixFont : List Byte :=
  List.replicate 264 0x00#8 ++ [0x70#8, 0x88#8, 0x88#8, 0xF8#8, 0x88#8, 0x88#8, 0x88#8, 0x00#8]
    ++ List.replicate 480 0x00#8 ++ List.replicate 8 0xFF#8

/-- The parameters of the fixture; the Pixel Buffer starts at `b` everywhere. -/
def fixData (b : Byte) : ConfigData where
  codeHome := 0x1E#8
  codeCls := 0x1A#8
  fontLast := 0x7E#8
  font := fixFont
  pbReset := List.replicate 192 b

/-- The fixture over a zero Pixel Buffer. -/
def fixCfg : Config := { fixData 0x00#8 with isLegal := by decide +kernel }

/-- The fixture over a Pixel Buffer of ones. -/
def onesCfg : Config := { fixData 0xFF#8 with isLegal := by decide +kernel }

/-- The post-init state of the vectors. -/
def start : State := { State.reset with cfg := fixCfg, ev := [.deviceInit 128#8 128#8] }

/-- The same with every byte of `PB` 0xFF. -/
def ones : State := { start with cfg := onesCfg }

/-- The state after a step that answers one. -/
def after (o : Host.Outcome State Fault Refusal) : Option State :=
  match o with
  | .next t => some t
  | .fault _ => none
  | .refused _ => none

/-- What is looked at after an instruction. -/
def look {α : Type} (i : Instr) (s : State) (f : State → α) : Option α := (after (exec i s)).map f

/-! ### Ill-formed terms are refused -/

theorem test_wf_reserved_op_below_8 : (Instr.reserved 7#4).wf fixCfg = false := by decide +kernel
theorem test_wf_glyph_of_a_control_code :
    (Instr.idleGlyph 0x1E#8).wf fixCfg = false ∧ (Instr.idleGlyph 0x1A#8).wf fixCfg = false ∧
    (Instr.idleGlyph 0x1B#8).wf fixCfg = false ∧ (Instr.idleGlyph 0x0D#8).wf fixCfg = false ∧
    (Instr.idleGlyph 0x0A#8).wf fixCfg = false := by decide +kernel
theorem test_wf_discard_of_a_command :
    (Instr.aescDiscard 0x3D#8).wf fixCfg = false ∧ (Instr.aescDiscard 0x21#8).wf fixCfg = false ∧
    (Instr.aescDiscard 0x54#8).wf fixCfg = false := by decide +kernel
theorem test_wf_cnop_of_a_step :
    (Instr.cnop 0x43#8).wf fixCfg = false ∧ (Instr.cnop 0x63#8).wf fixCfg = false ∧
    (Instr.cnop 0x42#8).wf fixCfg = false ∧ (Instr.cnop 0x62#8).wf fixCfg = false := by decide +kernel

/-- Every constraint on a configuration refuses (00_scope.md R11, R12). -/
theorem test_config_refused :
    Config.ofData { fixData 0#8 with codeHome := 0x1B#8 } = none ∧
    Config.ofData { fixData 0#8 with codeCls := 0x1E#8 } = none ∧
    Config.ofData { fixData 0#8 with fontLast := 0x1F#8, font := [] } = none ∧
    Config.ofData { fixData 0#8 with font := fixFont.drop 1 } = none ∧
    Config.ofData { fixData 0#8 with font := 0x04#8 :: fixFont.drop 1 } = none ∧
    Config.ofData { fixData 0#8 with pbReset := [] } = none := by decide +kernel

/-- Bits 1 and 0 of a row of the space glyph are free (00_scope.md R12). -/
theorem test_config_accepted :
    (Config.ofData (fixData 0#8)).isSome = true ∧
    (Config.ofData { fixData 0#8 with font := 0x03#8 :: fixFont.drop 1 }).isSome = true := by decide +kernel

/-! ### Decoding (95_test_vectors.md section 3.1, the keys of 44_interpreter.md) -/

theorem test_decode_feed : decodeWord 0x00000041#32 = .feed 0x41#8 := by decide
theorem test_decode_feed_ignores_bits : decodeWord 0x0E000041#32 = .feed 0x41#8 := by decide
theorem test_decode_init : decodeWord 0x10000000#32 = .init := by decide
theorem test_decode_set_pixel :
    decodeWord 0x21000107#32 = .setPixel 7#8 1#8 true ∧ decodeWord 0x2E000107#32 = .setPixel 7#8 1#8 false := by decide
theorem test_decode_get_pixel : decodeWord 0x30000F5F#32 = .getPixel 95#8 15#8 := by decide
theorem test_decode_render_glyph : decodeWord 0x400F017E#32 = .renderGlyph 0x7E#8 1#8 15#8 := by decide
theorem test_decode_redraw : decodeWord 0x5FFFFFFF#32 = .redraw := by decide
theorem test_decode_read_byte : decodeWord 0x600000BF#32 = .readByte 191#8 := by decide
theorem test_decode_inspect : decodeWord 0x70000040#32 = .inspect 0x40#8 := by decide
theorem test_decode_reserved :
    decodeWord 0x80000000#32 = .reserved 8#4 ∧ decodeWord 0xFFFFFFFF#32 = .reserved 15#4 := by decide
theorem test_decode_idle_home : decodeKey fixCfg 0x01E#11 = .ok .idleHome := by decide +kernel
theorem test_decode_idle_cls : decodeKey fixCfg 0x01A#11 = .ok .idleCls := by decide +kernel
theorem test_decode_idle_esc : decodeKey fixCfg 0x01B#11 = .ok .idleEsc := by decide +kernel
theorem test_decode_idle_cr : decodeKey fixCfg 0x00D#11 = .ok .idleCr := by decide +kernel
theorem test_decode_idle_lf : decodeKey fixCfg 0x00A#11 = .ok .idleLf := by decide +kernel
theorem test_decode_idle_glyph : decodeKey fixCfg 0x041#11 = .ok (.idleGlyph 0x41#8) := by decide +kernel
theorem test_decode_aesc_rowcol : decodeKey fixCfg 0x13D#11 = .ok .aescRowcol := by decide +kernel
theorem test_decode_aesc_cfg : decodeKey fixCfg 0x121#11 = .ok .aescCfg := by decide +kernel
theorem test_decode_aesc_eol : decodeKey fixCfg 0x154#11 = .ok .aescEol := by decide +kernel
theorem test_decode_aesc_discard :
    decodeKey fixCfg 0x11B#11 = .ok (.aescDiscard 0x1B#8) ∧ decodeKey fixCfg 0x174#11 = .ok (.aescDiscard 0x74#8) := by
  decide +kernel
theorem test_decode_arow : decodeKey fixCfg 0x21B#11 = .ok (.arow 0x1B#8) := by decide +kernel
theorem test_decode_acol : decodeKey fixCfg 0x30D#11 = .ok (.acol 0x0D#8) := by decide +kernel
theorem test_decode_cinc : decodeKey fixCfg 0x443#11 = .ok .cinc := by decide +kernel
theorem test_decode_cdec : decodeKey fixCfg 0x463#11 = .ok .cdec := by decide +kernel
theorem test_decode_binc : decodeKey fixCfg 0x442#11 = .ok .binc := by decide +kernel
theorem test_decode_bdec : decodeKey fixCfg 0x462#11 = .ok .bdec := by decide +kernel
theorem test_decode_cnop : decodeKey fixCfg 0x41B#11 = .ok (.cnop 0x1B#8) := by decide +kernel
theorem test_decode_no_such_state : decodeKey fixCfg 0x500#11 = .error (.noSuchInterpreterState 5#3) := by decide +kernel
theorem test_decode_table_words :
    decodeTableWord 32 0x40030141 = some (.renderGlyph 0x41#8 1#8 3#8) ∧ decodeTableWord 16 0x443 = some .cinc ∧
    decodeTableWord 16 0x500 = none := by decide
theorem test_encode :
    encode fixCfg (.renderGlyph 0x41#8 1#8 3#8) = .word 0x40030141#32 ∧ encode fixCfg .idleHome = .key 0x01E#11 := by
  decide +kernel

/-! ### The notation (30_encoding.md R85, R86, R87) -/

theorem test_assemble_lines :
    assembleLine fixCfg "SET_PIXEL 7, 1, 1".toList = some 0x21000107#32 ∧
    assembleLine fixCfg "RENDER_GLYPH 'A', 1, 3".toList = some 0x40030141#32 ∧
    assembleLine fixCfg "INSPECT 0x40".toList = some 0x70000040#32 := by decide +kernel
/-- The lines of 95_test_vectors.md sections 3.1, 3.4 and 3.5 that name a code. -/
theorem test_assemble_named_codes :
    assembleLine fixCfg "FEED ESC".toList = some 0x0000001B#32 ∧ assembleLine fixCfg "FEED CR".toList = some 0x0000000D#32 ∧
    assembleLine fixCfg "FEED LF".toList = some 0x0000000A#32 ∧
    assembleLine fixCfg "FEED CODE_HOME".toList = some 0x0000001E#32 ∧
    assembleLine fixCfg "FEED CODE_CLS".toList = some 0x0000001A#32 ∧
    assembleLine fixCfg "FEED 'A'".toList = some 0x00000041#32 ∧
    assembleLine fixCfg "READ_BYTE ESC".toList = none := by decide +kernel
theorem test_assemble_streams :
    assembleStream fixCfg "ESC '=' 0x01 0x25".toList
      = some [0x0000001B#32, 0x0000003D#32, 0x00000001#32, 0x00000025#32] ∧
    assembleStream fixCfg "GOTO 0, 14 EOL HOME \"A,\"".toList
      = some [0x1B#32, 0x3D#32, 0x00#32, 0x2E#32, 0x1B#32, 0x54#32, 0x1E#32, 0x41#32, 0x2C#32] := by decide +kernel

/-! ### Pixel Buffer (95_test_vectors.md section 3.2) -/

theorem test_set_pixel :
    look (.setPixel 13#8 5#8 true) start (fun t => (t.memRead .pb 61, t.result)) = some (0x04#8, some 0x0000#16) ∧
    look (.setPixel 3#8 0#8 false) ones (fun t => (t.memRead .pb 0, t.memRead .pb 1)) = some (0xEF#8, 0xFF#8) := by
  decide +kernel
theorem test_set_pixel_clipped :
    look (.setPixel 96#8 0#8 true) start (fun t => (t.pb, t.result)) = some ([], some 0x0000#16) ∧
    look (.setPixel 0#8 16#8 true) start (fun t => t.pb) = some [] := by decide +kernel
theorem test_get_pixel :
    look (.getPixel 7#8 1#8) { start with pb := [(12, 0x01#8)] } (fun t => t.result) = some (some 0x0001#16) ∧
    look (.getPixel 6#8 1#8) { start with pb := [(12, 0x01#8)] } (fun t => t.result) = some (some 0x0000#16) := by
  decide +kernel
theorem test_get_pixel_clipped :
    look (.getPixel 96#8 0#8) ones (fun t => t.result) = some (some 0x0000#16) ∧
    look (.getPixel 0#8 16#8) ones (fun t => t.result) = some (some 0x0000#16) := by decide +kernel
theorem test_read_byte :
    look (.readByte 191#8) { start with pb := [(191, 0x01#8)] } (fun t => t.result) = some (some 0x0001#16) := by
  decide +kernel
theorem test_read_byte_clipped : look (.readByte 192#8) ones (fun t => t.result) = some (some 0x0000#16) := by
  decide +kernel

/-! ### Rasterizer (95_test_vectors.md section 3.3) -/

theorem test_render_glyph :
    look (.renderGlyph 0x41#8 0#8 1#8) start
        (fun t => (t.memRead .pb 0, t.memRead .pb 1, t.memRead .pb 36, t.memRead .pb 37, t.result))
      = some (0x01#8, 0xC0#8, 0x03#8, 0xE0#8, some 0x0000#16) := by decide +kernel
theorem test_render_glyph_clips_before_the_font :
    look (.renderGlyph 0x10#8 2#8 0#8) start (fun t => (t.fault, t.result)) = some (0x00#8, some 0x0000#16) ∧
    look (.renderGlyph 0x7F#8 0#8 0#8) start (fun t => (t.fault, t.result, t.pb)) = some (0x01#8, some 0x0200#16, []) := by
  decide +kernel

/-! ### Redraw, INIT, INSPECT, reserved codes (95_test_vectors.md sections 3.5 to 3.7) -/

/-- V-REDRAW, for the cell of the stray pixel: rendering the cell's code again removes it. -/
theorem test_redraw_cell :
    (({ start with pb := [(0, 0x80#8)] }).renderCells [(0, 0)]).toOption.map State.pb = some [] := by decide +kernel

/-- V-REDRAW-PENDING: REDRAW leaves a pending escape. -/
theorem test_redraw_keeps_the_escape : ∃ t, exec .redraw { start with ist := .awaitRow } = .next t ∧ t.ist = .awaitRow := by
  obtain ⟨s, hs⟩ : ∃ s : State, s = { start with ist := .awaitRow } := ⟨_, rfl⟩
  rw [← hs]
  obtain ⟨t, ht, hfr, -⟩ := State.redraw_spec s (by rw [hs]; exact fun _ _ => inFont_space _)
  refine ⟨t.complete 0#8, ?_, ?_⟩
  · simp only [exec, execRedraw, ht, State.conclude]
  · rw [State.complete_ist, hfr, hs]

/-- V-INIT. -/
theorem test_init : ∃ t,
    exec .init { start with ist := .awaitCol, crow := 1#1, contrast := 129#8, fault := 0x02#8, ev := [] } = .next t ∧
    t.ist = .idle ∧ t.crow = 0#1 ∧ t.contrast = 129#8 ∧ t.fault = 0x02#8 ∧ t.ev = [.deviceInit 129#8 128#8] := by
  obtain ⟨s, hs⟩ : ∃ s : State, s = { start with ist := .awaitCol, crow := 1#1, contrast := 129#8, fault := 0x02#8, ev := [] } :=
    ⟨_, rfl⟩
  rw [← hs]
  obtain ⟨t, ht, hfr, -⟩ := State.fullClear_spec { s with ist := .idle }
  refine ⟨t.complete 0#8, ?_, ?_⟩
  · simp only [exec, execInit, ht, State.conclude]
  · rw [hfr, hs]
    exact ⟨rfl, rfl, rfl, rfl, rfl⟩

/-- V-CLS. -/
theorem test_cls : ∃ t,
    exec .idleCls { start with ccol := 2#4, contrast := 130#8, shadow := [(0, 0x41#8), (1, 0x41#8)] } = .next t ∧
    t.ccol = 0#4 ∧ t.memRead .shadow 0 = 0x20#8 ∧ t.memRead .pb 191 = 0x00#8 ∧
    t.ev = [.deviceInit 128#8 128#8, .deviceInit 130#8 128#8] := by
  obtain ⟨s, hs⟩ : ∃ s : State, s = { start with ccol := 2#4, contrast := 130#8, shadow := [(0, 0x41#8), (1, 0x41#8)] } :=
    ⟨_, rfl⟩
  rw [← hs]
  obtain ⟨t, ht, hfr, hsh, hpb, -⟩ := State.fullClear_spec s
  refine ⟨t.complete 0#8, ?_, ?_, ?_, ?_, ?_⟩
  · simp only [exec, execIdleCls, State.feedCls, ht, State.conclude]
  · rw [State.complete_ccol, hfr]
  · rw [State.complete_memRead, hsh, if_pos (by decide)]
  · rw [State.complete_memRead, hpb, if_pos (by decide)]
  · rw [State.complete_ev, hfr, hs]; rfl

theorem test_inspect :
    look (.inspect 0x00#8) { start with ist := .awaitCfg } (fun t => t.result) = some (some 0x0004#16) ∧
    look (.inspect 0x55#8) { start with shadow := [(21, 0x41#8)] } (fun t => t.result) = some (some 0x0041#16) := by
  decide +kernel
theorem test_inspect_unlisted :
    look (.inspect 0x06#8) start (fun t => (t.fault, t.result)) = some (0x04#8, some 0x0300#16) ∧
    look (.inspect 0x60#8) start (fun t => (t.fault, t.result)) = some (0x04#8, some 0x0300#16) := by decide +kernel
theorem test_reserved :
    look (.reserved 9#4) start (fun t => (t.fault, t.result, t.ev)) = some (0x04#8, some 0x0300#16, [.deviceInit 128#8 128#8]) := by
  decide +kernel

/-! ### Cursor and interpreter (95_test_vectors.md sections 3.4 and 3.5) -/

theorem test_idle_home :
    look .idleHome { start with crow := 1#1, ccol := 7#4 } (fun t => (t.crow, t.ccol)) = some (0#1, 0#4) := by decide +kernel
theorem test_idle_cr :
    look .idleCr { start with crow := 1#1, ccol := 9#4 } (fun t => (t.crow, t.ccol)) = some (1#1, 0#4) := by decide +kernel
theorem test_idle_lf :
    look .idleLf { start with crow := 1#1, ccol := 9#4 } (fun t => (t.crow, t.ccol)) = some (0#1, 9#4) := by decide +kernel
theorem test_idle_esc : look .idleEsc start (fun t => (t.ist, t.pb)) = some (.afterEsc, []) := by decide +kernel
theorem test_idle_glyph :
    look (.idleGlyph 0x41#8) { start with crow := 1#1, ccol := 15#4 }
        (fun t => (t.shadow, t.crow, t.ccol, t.memRead .pb 107, t.memRead .pb 143))
      = some ([(31, 0x41#8)], 0#1, 0#4, 0x1C#8, 0x3E#8) := by decide +kernel
theorem test_idle_glyph_out_of_font :
    look (.idleGlyph 0x09#8) { start with ccol := 5#4 } (fun t => (t.ccol, t.shadow, t.fault, t.result))
      = some (5#4, [], 0x01#8, some 0x0200#16) := by decide +kernel
theorem test_feed_dispatches_on_the_state :
    look (.feed 0x1E#8) { start with ccol := 9#4 } (fun t => (t.ist, t.ccol)) = some (.idle, 0#4) ∧
    look (.feed 0x1E#8) { start with ist := .afterEsc, ccol := 9#4 } (fun t => (t.ist, t.ccol)) = some (.idle, 9#4) := by
  decide +kernel
theorem test_aesc_rowcol : look .aescRowcol { start with ist := .afterEsc } (fun t => t.ist) = some .awaitRow := by decide +kernel
theorem test_aesc_cfg :
    look .aescCfg { start with ist := .afterEsc } (fun t => (t.ist, t.ev)) = some (.awaitCfg, [.deviceInit 128#8 128#8]) := by
  decide +kernel
theorem test_aesc_discard :
    look (.aescDiscard 0x1B#8) { start with ist := .afterEsc, crow := 1#1, ccol := 4#4 } (fun t => (t.ist, t.crow, t.ccol, t.result))
      = some (.idle, 1#1, 4#4, some 0x0000#16) := by decide +kernel

/-- V-EOL2: byte 23 keeps the two pixel columns of cell (0,14). -/
theorem test_aesc_eol :
    look .aescEol { start with ist := .afterEsc, ccol := 15#4, shadow := [(14, 0x41#8), (15, 0x41#8)],
                               pb := [(11, 0x1C#8), (23, 0xA2#8)] }
        (fun t => (t.shadow, t.memRead .pb 11, t.memRead .pb 23, t.ccol))
      = some ([(14, 0x41#8)], 0x00#8, 0x80#8, 15#4) := by decide +kernel
theorem test_arow :
    look (.arow 0x1B#8) { start with ist := .awaitRow, ccol := 7#4 } (fun t => (t.crow, t.ccol, t.ist)) = some (1#1, 7#4, .awaitCol) ∧
    look (.arow 0x20#8) { start with ist := .awaitRow, crow := 1#1 } (fun t => t.crow) = some 0#1 := by decide +kernel
theorem test_acol :
    look (.acol 0x2F#8) { start with ist := .awaitCol } (fun t => (t.ccol, t.fault, t.result)) = some (15#4, 0x00#8, some 0x0000#16) ∧
    look (.acol 0x25#8) { start with ist := .awaitCol } (fun t => (t.ccol, t.ist)) = some (5#4, .idle) := by decide +kernel
theorem test_acol_clamped :
    look (.acol 0x30#8) { start with ist := .awaitCol } (fun t => (t.ccol, t.fault, t.result, t.ist))
      = some (15#4, 0x02#8, some 0x0100#16, .idle) ∧
    look (.acol 0x1F#8) { start with ist := .awaitCol } (fun t => (t.ccol, t.fault)) = some (15#4, 0x02#8) := by decide +kernel
theorem test_cinc_wraps :
    look .cinc { start with ist := .awaitCfg, contrast := 255#8, ev := [] } (fun t => (t.contrast, t.ev, t.ist))
      = some (0#8, [.configPush 0#8 128#8], .idle) := by decide +kernel
theorem test_cdec_wraps :
    look .cdec { start with ist := .awaitCfg, contrast := 0#8, ev := [] } (fun t => (t.contrast, t.ev))
      = some (255#8, [.configPush 255#8 128#8]) := by decide +kernel
theorem test_binc_wraps :
    look .binc { start with ist := .awaitCfg, brightness := 255#8, ev := [] } (fun t => (t.brightness, t.ev))
      = some (0#8, [.configPush 128#8 0#8]) := by decide +kernel
theorem test_bdec_wraps :
    look .bdec { start with ist := .awaitCfg, brightness := 0#8, ev := [] } (fun t => (t.brightness, t.ev))
      = some (255#8, [.configPush 128#8 255#8]) := by decide +kernel
theorem test_cnop_pushes :
    look (.cnop 0x1B#8) { start with ist := .awaitCfg, ev := [] } (fun t => (t.contrast, t.ev, t.ist))
      = some (128#8, [.configPush 128#8 128#8], .idle) := by decide +kernel

/-! ### The step -/

theorem test_step_takes_the_next_word :
    (after (step { start with pending := [0x21000107#32, 0x50000000#32] })).map (fun t => (t.memRead .pb 12, t.pending))
      = some (0x01#8, [0x50000000#32]) := by decide +kernel
theorem test_fetch_word :
    (after (step (start.withFetchWord 32 0x80000000))).map (fun t => t.fault) = some 0x04#8 ∧
    (after (step (start.withFetchWord 16 0x201))).map (fun t => (t.crow, t.ist)) = some (1#1, .awaitCol) := by decide +kernel

/-! ### Witnesses: the hypotheses of the statements can be met -/

theorem witness_DecodeOfEncodeIsTheInstruction :
    (Instr.reserved 8#4).wf fixCfg = true ∧ (Instr.reserved 15#4).wf fixCfg = true ∧
    (Instr.idleGlyph 0x1F#8).wf fixCfg = true ∧ (Instr.idleGlyph 0xFF#8).wf fixCfg = true ∧
    (Instr.aescDiscard 0x1B#8).wf fixCfg = true ∧ (Instr.cnop 0x00#8).wf fixCfg = true := by decide +kernel

theorem witness_UnusedBitsAreIgnored :
    0x0E000041#32 &&& usedBits ((0x0E000041#32).extractLsb' 28 4) = 0x00000041#32 &&& usedBits ((0x00000041#32).extractLsb' 28 4) ∧
    0x5FFFFFFF#32 &&& usedBits ((0x5FFFFFFF#32).extractLsb' 28 4) = 0x50000000#32 &&& usedBits ((0x50000000#32).extractLsb' 28 4) := by
  decide

theorem witness_FeedKeysRejectedByInterpreterState :
    5 ≤ ((0x500#11).extractLsb' 8 3).toNat ∧ 5 ≤ ((0x7FF#11).extractLsb' 8 3).toNat ∧
    ((0x000#11).extractLsb' 8 3).toNat < 5 ∧ ((0x4FF#11).extractLsb' 8 3).toNat < 5 := by decide

theorem witness_StepRunsTheDecodedInstruction :
    ({ start with pending := [0x10000000#32] } : State).pending = 0x10000000#32 :: [] ∧ start.pending = [] := by decide

/-- A command word of each operation code below 8, and one with bit 31 set. -/
theorem witness_operation_codes :
    (0x00000041#32).extractLsb' 28 4 = 0x0#4 ∧ (0x10000000#32).extractLsb' 28 4 = 0x1#4 ∧
    (0x21000107#32).extractLsb' 28 4 = 0x2#4 ∧ (0x30000F5F#32).extractLsb' 28 4 = 0x3#4 ∧
    (0x40030141#32).extractLsb' 28 4 = 0x4#4 ∧ (0x50000000#32).extractLsb' 28 4 = 0x5#4 ∧
    (0x600000BF#32).extractLsb' 28 4 = 0x6#4 ∧ (0x70000040#32).extractLsb' 28 4 = 0x7#4 ∧
    (0x80000000#32).getLsbD 31 = true := by decide

theorem witness_SetPixelWritesItsBit :
    (96 ≤ (96#8).toNat ∨ 16 ≤ (0#8).toNat) ∧ (96 ≤ (0#8).toNat ∨ 16 ≤ (16#8).toNat) ∧
    ((0#8).toNat < 96 ∧ (0#8).toNat < 16) ∧ (95#8).toNat < 96 ∧ (15#8).toNat < 16 := by decide

theorem start_memoryWf : start.memoryWf := ⟨rfl, rfl⟩
theorem start_shadowInFont : start.shadowInFont := fun _ _ => inFont_space _

theorem witness_SetPixelLastWinsAndCommutes :
    start.memoryWf ∧ ((95#8 : Byte) = 95#8 ∧ (15#8 : Byte) = 15#8) ∧ ((94#8 : Byte) ≠ 95#8 ∨ (15#8 : Byte) ≠ 15#8) :=
  ⟨start_memoryWf, by decide⟩

theorem witness_GetPixelAfterSetPixel :
    (95#8).toNat < 96 ∧ (15#8).toNat < 16 ∧ ((96#8 : Byte) ≠ 95#8 ∨ (15#8 : Byte) ≠ 15#8) := by decide

theorem witness_RenderGlyphDrawsItsCell :
    (2 ≤ (2#8).toNat ∨ 16 ≤ (0#8).toNat) ∧ (2 ≤ (0#8).toNat ∨ 16 ≤ (16#8).toNat) ∧
    ((1#8).toNat < 2 ∧ (15#8).toNat < 16) ∧ ¬ FontHas start.cfg 0x1F#8 ∧ ¬ FontHas start.cfg 0x7F#8 ∧
    FontHas start.cfg 0x20#8 ∧ FontHas start.cfg 0x7E#8 ∧ InCell 1 15 90 8 ∧ InCell 1 15 95 15 ∧ ¬ InCell 1 15 89 8 := by
  decide +kernel

theorem witness_RenderGlyphByteByByte :
    (1#8).toNat < 2 ∧ (15#8).toNat < 16 ∧ FontHas start.cfg 0x7E#8 ∧
    (12#8).toNat % 4 = 0 ∧ (13#8).toNat % 4 = 1 ∧ (14#8).toNat % 4 = 2 ∧ (15#8).toNat % 4 = 3 ∧
    189 = 12 * ((1#8).toNat * 8 + 7) + 3 * ((15#8).toNat / 4) := by decide +kernel

theorem witness_RenderGlyphIdempotentAndCommutes :
    start.memoryWf ∧ ((1#8).toNat < 2 ∧ (15#8).toNat < 16 ∧ FontHas start.cfg 0x41#8 ∧ (0#8).toNat < 2 ∧ (0#8).toNat < 16 ∧
      FontHas start.cfg 0x7E#8 ∧ ((1#8 : Byte) ≠ 0#8 ∨ (15#8 : Byte) ≠ 0#8)) :=
  ⟨start_memoryWf, by decide +kernel⟩

theorem witness_SpaceRendersBlank : (1#8).toNat < 2 ∧ (15#8).toNat < 16 ∧ InCell 1 15 90 8 := by decide

/-- Of HomeSendsTheCursorHome, CrAndLfMoveTheCursor, EscapeBytesChangeOnlyTheInterpreterState, ClsClearsTheScreen. -/
theorem witness_interpreter_in_idle : start.ist = .idle := rfl

theorem witness_AdvanceWrapsAtTheRowEnds :
    (({ start with crow := 1#1, ccol := 15#4 } : State).ccol.toNat = 15 ∧
      ({ start with crow := 1#1, ccol := 15#4 } : State).crow.toNat = 1) ∧
    (({ start with ccol := 15#4 } : State).ccol.toNat = 15 ∧ ({ start with ccol := 15#4 } : State).crow.toNat = 0) ∧
    ({ start with ccol := 14#4 } : State).ccol.toNat < 15 ∧ start.ccol.toNat < 15 := by decide

theorem witness_FeedPerformsTheRuleOfItsClass :
    feedClass start.cfg start.ist 0x1A#8 ≠ .glyph ∧ feedClass start.cfg start.ist 0x1A#8 ≠ .col := by decide +kernel

theorem witness_EscapeBytesChangeOnlyTheInterpreterState :
    ({ start with ist := .afterEsc } : State).ist = .afterEsc ∧
    (0x1B#8 : Byte) ≠ 0x3D#8 ∧ (0x1B#8 : Byte) ≠ 0x21#8 ∧ (0x1B#8 : Byte) ≠ 0x54#8 := by decide

theorem witness_EscapeDiscardLeavesNoTrace :
    start.ist = .idle ∧ (0x78#8 : Byte) ≠ 0x3D#8 ∧ (0x78#8 : Byte) ≠ 0x21#8 ∧ (0x78#8 : Byte) ≠ 0x54#8 := by decide

/-- Of ParameterBytesAreData, RowByteSetsTheRow, and the statements of the configuration bytes. -/
theorem witness_interpreter_awaits :
    ({ start with ist := .awaitRow } : State).ist = .awaitRow ∧ ({ start with ist := .awaitCol } : State).ist = .awaitCol ∧
    ({ start with ist := .awaitCfg } : State).ist = .awaitCfg := by decide

theorem witness_GlyphByteIsDisplayed :
    FontHas start.cfg 0x20#8 ∧ FontHas start.cfg 0x7E#8 ∧ ¬ FontHas start.cfg 0x1F#8 ∧ ¬ FontHas start.cfg 0x7F#8 ∧
    start.ist = .idle ∧ (0x20#8 ≠ start.cfg.codeHome ∧ 0x20#8 ≠ start.cfg.codeCls ∧ (0x20#8 : Byte) ≠ 0x1B#8 ∧
      (0x20#8 : Byte) ≠ 0x0D#8 ∧ (0x20#8 : Byte) ≠ 0x0A#8) := by decide +kernel

theorem witness_ClearToEndOfLineBlanksTheRest : ({ start with ist := .afterEsc } : State).ist = .afterEsc := by decide

theorem witness_ColumnByteSetsTheColumnClamped :
    (0x20 ≤ (0x20#8).toNat ∧ (0x20#8).toNat ≤ 0x2F) ∧ (0x20 ≤ (0x2F#8).toNat ∧ (0x2F#8).toNat ≤ 0x2F) ∧
    ((0x1F#8).toNat < 0x20 ∨ 0x2F < (0x1F#8).toNat) ∧ ((0x30#8).toNat < 0x20 ∨ 0x2F < (0x30#8).toNat) := by decide

theorem witness_OtherConfigBytesOnlyPush :
    (0x1B#8 : Byte) ≠ 0x43#8 ∧ (0x1B#8 : Byte) ≠ 0x63#8 ∧ (0x1B#8 : Byte) ≠ 0x42#8 ∧ (0x1B#8 : Byte) ≠ 0x62#8 := by decide

theorem witness_GotoSequenceSetsTheCursor :
    ({ start with pending := [0x1B#32, 0x3D#32, 0x01#32, 0x2F#32, 0x10000000#32] } : State).ist = .idle ∧
    ({ start with pending := [0x1B#32, 0x3D#32, 0x01#32, 0x2F#32, 0x10000000#32] } : State).pending
      = streamWords start.cfg [.goto 1#1 15#4] ++ [0x10000000#32] := by decide +kernel

theorem witness_RedrawRendersTheShadowBuffer : start.shadowInFont := start_shadowInFont

theorem witness_InitIsIdempotent : start.memoryWf := start_memoryWf

theorem witness_InspectReturnsTheSelected :
    (0x40 ≤ (0x40#8).toNat ∧ (0x40#8).toNat ≤ 0x5F) ∧ (0x40 ≤ (0x5F#8).toNat ∧ (0x5F#8).toNat ≤ 0x5F) ∧
    ((0x05 < (0x06#8).toNat ∧ (0x06#8).toNat < 0x40) ∨ 0x5F < (0x06#8).toNat) ∧
    ((0x05 < (0x3F#8).toNat ∧ (0x3F#8).toNat < 0x40) ∨ 0x5F < (0x3F#8).toNat) ∧
    ((0x05 < (0x60#8).toNat ∧ (0x60#8).toNat < 0x40) ∨ 0x5F < (0x60#8).toNat) := by decide

theorem witness_ReservedCodesRaiseReserved :
    (0xFFFFFFFF#32).getLsbD 31 = true ∧ ((0x05 < (0xFF#8).toNat ∧ (0xFF#8).toNat < 0x40) ∨ 0x5F < (0xFF#8).toNat) := by decide

/-- Each status at the ends of the range that raises it. -/
theorem witness_StatusesAreRaisedAsTabulated :
    start.shadowInFont ∧
    (RaisesColClamped (.acol 0x1F#8) start ∧ RaisesColClamped (.feed 0x30#8) { start with ist := .awaitCol }) ∧
    (RaisesGlyphRange (.idleGlyph 0x1F#8) start ∧ RaisesGlyphRange (.feed 0x7F#8) start ∧
      RaisesGlyphRange (.renderGlyph 0x7F#8 1#8 15#8) start) ∧
    RaisesReserved (.reserved 8#4) ∧ RaisesReserved (.inspect 0x06#8) ∧ RaisesReserved (.inspect 0x3F#8) ∧
    RaisesReserved (.inspect 0x60#8) :=
  ⟨start_shadowInFont, ⟨⟨0x1F#8, by decide, .inl rfl⟩, ⟨0x30#8, by decide, .inr ⟨rfl, rfl⟩⟩⟩,
    ⟨⟨0x1F#8, by decide +kernel, .inl rfl⟩, ⟨0x7F#8, by decide +kernel, .inr (.inl ⟨rfl, by decide +kernel⟩)⟩,
      ⟨0x7F#8, by decide +kernel, .inr (.inr ⟨1#8, 15#8, by decide, by decide, rfl⟩)⟩⟩,
    .inl ⟨8#4, rfl⟩, .inr ⟨0x06#8, by decide, rfl⟩, .inr ⟨0x3F#8, by decide, rfl⟩, .inr ⟨0x60#8, by decide, rfl⟩⟩

/-- ESC in IDLE, and a column byte at each end of the grid, raise nothing. -/
theorem witness_StatusesAreRaisedAsTabulated_ok :
    (¬ RaisesColClamped (.feed 0x1B#8) start ∧ ¬ RaisesGlyphRange (.feed 0x1B#8) start ∧ ¬ RaisesReserved (.feed 0x1B#8)) ∧
    ¬ RaisesColClamped (.acol 0x20#8) start ∧ ¬ RaisesColClamped (.acol 0x2F#8) start := by
  have hk : feedClass start.cfg start.ist 0x1B#8 ≠ .glyph := by decide +kernel
  refine ⟨⟨?_, ?_, ?_⟩, ?_, ?_⟩
  · rintro ⟨c, -, h | ⟨-, h⟩⟩ <;> cases h
  · rintro ⟨c, -, h | ⟨h, hg⟩ | ⟨_, _, -, -, h⟩⟩
    · cases h
    · cases h; exact hk hg
    · cases h
  · rintro (⟨_, h⟩ | ⟨_, -, h⟩) <;> cases h
  all_goals
    rintro ⟨c, hc, h | ⟨h, -⟩⟩ <;> cases h
    revert hc; decide

/-- Of FaultBitsAreSticky and TheConfigurationIsConstant. -/
theorem witness_step_answers_next : ∃ t, step { start with pending := [0x80000000#32] } = .next t := ⟨_, rfl⟩

theorem witness_EventsAreEmittedAsTabulated :
    ({ start with pending := [0x10000000#32] } : State).pending = 0x10000000#32 :: [] ∧
    decodeWord 0x10000000#32 = .init ∧ (start.ist = .idle ∧ decodeWord 0x0000001A#32 = .feed start.cfg.codeCls) ∧
    (({ start with ist := .awaitCfg } : State).ist = .awaitCfg ∧ ∃ c, decodeWord 0x00000043#32 = .feed c) ∧
    ¬ (decodeWord 0x50000000#32 = .init) ∧ ¬ (∃ c, decodeWord 0x50000000#32 = .feed c) :=
  ⟨rfl, by decide, ⟨rfl, by decide +kernel⟩, ⟨rfl, 0x43#8, by decide⟩, by decide, by
    rintro ⟨c, hc⟩
    exact Instr.noConfusion ((by decide : decodeWord 0x50000000#32 = .redraw).symm.trans hc)⟩

theorem witness_OnlyConfigBytesChangeTheConfiguration :
    ∃ t, step { start with ist := .awaitCfg, pending := [0x00000043#32] } = .next t ∧ t.contrast ≠ start.contrast :=
  ⟨_, rfl, by decide +kernel⟩

theorem witness_OnlyTheNamedOperationsWrite :
    (∀ c, decodeWord 0x600000BF#32 ≠ .feed c) ∧ decodeWord 0x600000BF#32 ≠ .init ∧
    (∃ w, decodeWord w = Instr.readByte 191#8) ∧ ∃ a, decodeWord 0x600000BF#32 = .readByte a :=
  have h : decodeWord 0x600000BF#32 = .readByte 191#8 := by decide
  ⟨by simp [h], by simp [h], ⟨_, h⟩, _, h⟩

theorem witness_EveryStepKeepsTheInvariant :
    ({ start with pending := [0x80000000#32] } : State).Inv ∧ ∃ t, step { start with pending := [0x80000000#32] } = .next t :=
  ⟨⟨⟨rfl, rfl⟩, fun _ _ => inFont_space _, rfl⟩, _, rfl⟩

theorem start_rendered : start.Rendered := by
  have h : ∀ x, x < 96 → ∀ y, y < 16 →
      start.pixel x y = fontBit start.cfg (start.memRead .shadow (y / 8 * 16 + x / 6)) (y % 8) (x % 6) := by decide +kernel
  exact fun x y hx hy => h x hx y hy

theorem witness_TextOperationsKeepTheRendering :
    ({ start with pending := [0x00000041#32] } : State).shadowInFont ∧ ({ start with pending := [0x00000041#32] } : State).Rendered ∧
    (∀ x y on, decodeWord 0x00000041#32 ≠ .setPixel x y on) ∧
    (∀ c row column, decodeWord 0x00000041#32 ≠ .renderGlyph c row column) ∧
    ∃ t, step { start with pending := [0x00000041#32] } = .next t :=
  have h : decodeWord 0x00000041#32 = .feed 0x41#8 := by decide
  ⟨fun _ _ => inFont_space _, start_rendered, by simp [h], by simp [h], _, rfl⟩

/-- Two states with different `PB_RESET` that look alike: in the second every byte of `PB` is listed as zero. -/
theorem witness_StatesThatLookAlikeStepAlike :
    SameView start { ones with pb := (List.range 192).map fun a => (a, 0x00#8) } ∧ (∃ t, step start = .next t) ∧
    ∃ t, step { ones with pb := (List.range 192).map fun a => (a, 0x00#8) } = .next t :=
  ⟨⟨rfl, rfl, rfl, rfl, rfl, rfl, rfl, rfl, rfl, rfl, rfl, rfl, rfl, by decide +kernel, fun _ _ => rfl⟩, ⟨_, rfl⟩, _, rfl⟩

theorem witness_InitForgetsTheScreen :
    start.cfg.codeHome = ones.cfg.codeHome ∧ start.cfg.codeCls = ones.cfg.codeCls ∧ start.cfg.fontLast = ones.cfg.fontLast ∧
    start.cfg.font = ones.cfg.font ∧ start.contrast = ones.contrast ∧ start.brightness = ones.brightness ∧
    start.fault = ones.fault ∧ start.ev = ones.ev ∧ start.pending = ones.pending :=
  ⟨rfl, rfl, rfl, rfl, rfl, rfl, rfl, rfl, rfl⟩

end Sys2Proof.Tests
end

section
/-! The values after reset (10_state.md R37). -/

namespace Sys2Proof.Machine

/-- A space that lists nothing reads everywhere as its unlisted contents. -/
theorem State.memRead_of_space_eq_nil {s : State} {sp : Space} (h : s.space sp = []) (a : Nat) :
    s.memRead sp a = unlisted s.cfg sp a := by
  unfold State.memRead; rw [h]; rfl

/-- Reset lists no byte in any space, so each reads as its unlisted contents under the configuration of the machine. -/
theorem State.reset_memRead (sp : Space) (a : Nat) :
    State.reset.memRead sp a = unlisted Config.machine sp a :=
  have hnil : State.reset.space sp = [] := by cases sp <;> rfl
  State.memRead_of_space_eq_nil hnil a

/-- Settles O41: the registers are the fields of the reset state, the two memories read as their unlisted contents. -/
theorem resetLeavesTheListedValues : Obligations.ResetLeavesTheListedValues := by
  have hshadow : ∀ a, a < 32 → State.reset.memRead .shadow a = 0x20#8 :=
    fun a _ => State.reset_memRead .shadow a
  have hpb : ∀ a, a < 192 → State.reset.memRead .pb a = Config.machine.pbReset.getD a 0#8 :=
    fun a _ => State.reset_memRead .pb a
  exact ⟨rfl, rfl, rfl, rfl, rfl, rfl, hshadow, hpb, rfl⟩

end Sys2Proof.Machine
end

section
/-! The feed decode function in the listed order of its tests, and the pseudo-sequences (30_encoding.md R80, R86, R87). -/

namespace Sys2Proof.Machine

/-! ### The feed decode function (30_encoding.md R80) -/

/-- No fixed code equals `CODE_HOME`, so testing the fixed codes first does not hide it (00_scope.md R11). -/
theorem feedClass_idle_codeHome (cfg : Config) : feedClass cfg .idle cfg.codeHome = .home := by
  obtain ⟨-, ⟨hEsc, hCr, hLf⟩, -⟩ := cfg.codes_distinct
  simp [feedClass, hEsc, hCr, hLf]

/-- Neither a fixed code nor `CODE_HOME` equals `CODE_CLS`, so testing them first does not hide it (00_scope.md R11). -/
theorem feedClass_idle_codeCls (cfg : Config) : feedClass cfg .idle cfg.codeCls = .cls := by
  obtain ⟨hHome, -, hEsc, hCr, hLf⟩ := cfg.codes_distinct
  simp [feedClass, hEsc, hCr, hLf, hHome.symm]

/-- In IDLE the two orders of the tests agree: they differ only in the place of the two parameters, and a byte that is
neither parameter meets the same three tests in both. -/
theorem feedClass_idle_eq_listed (cfg : Config) (c : Byte) : feedClass cfg .idle c = feedClassListed cfg .idle c := by
  by_cases hHome : c = cfg.codeHome
  · subst hHome
    rw [feedClass_idle_codeHome]
    simp [feedClassListed]
  by_cases hCls : c = cfg.codeCls
  · subst hCls
    rw [feedClass_idle_codeCls]
    simp [feedClassListed, hHome]
  · simp [feedClass, feedClassListed, hHome, hCls]

/-- Settles O5: outside IDLE the tests stand in the listed order; in IDLE the order does not matter, the codes being
distinct. -/
theorem feedDecodeFollowsTheListedTests : Obligations.FeedDecodeFollowsTheListedTests := by
  intro cfg ist c
  cases ist with
  | idle => exact feedClass_idle_eq_listed cfg c
  | afterEsc => rfl
  | awaitRow => rfl
  | awaitCol => rfl
  | awaitCfg => rfl

/-! ### Feed streams and pseudo-sequences (30_encoding.md R86, R87) -/

/-- A stream of any items decodes to one FEED of each of its bytes, in order (30_encoding.md R86). -/
theorem map_decodeWord_streamWords (cfg : Config) (items : List StreamItem) :
    (streamWords cfg items).map decodeWord = (items.flatMap (StreamItem.bytes cfg)).map .feed := by
  rw [streamWords, List.map_map]
  exact List.map_congr_left fun c _ => decodeWord_feedWord c

/-- The row byte of `GOTO` is the raw row (30_encoding.md R87). -/
theorem toNat_gotoRowByte (r : BitVec 1) : (r.setWidth 8).toNat = r.toNat :=
  BitVec.toNat_setWidth_of_le (by decide)

/-- The column byte of `GOTO` is the column above 0x20; at most 0x2F, it does not wrap (30_encoding.md R87). -/
theorem toNat_gotoColumnByte (col : BitVec 4) : (0x20#8 + col.setWidth 8).toNat = 0x20 + col.toNat := by
  have hlt : col.toNat < 16 := column_lt col
  rw [BitVec.toNat_add, BitVec.toNat_setWidth_of_le (by decide), BitVec.toNat_ofNat]
  omega

/-- Settles O33: the words by the law of streams, the operand bytes of `GOTO` by their values, the other rows as listed. -/
theorem pseudoSequencesExpandToTheirBytes : Obligations.PseudoSequencesExpandToTheirBytes := by
  refine ⟨fun cfg item => ?_, fun cfg => ⟨fun r col => ?_, rfl, rfl, rfl, rfl, rfl, rfl⟩⟩
  · simpa using map_decodeWord_streamWords cfg [item]
  · exact ⟨_, _, toNat_gotoRowByte r, toNat_gotoColumnByte col, rfl⟩

end Sys2Proof.Machine
end

section
/-! The pixel operations of the host: SET_PIXEL, GET_PIXEL and READ_BYTE (41_pixel_buffer.md R96, R98, R100). -/

namespace Sys2Proof.Machine

/-! ### The command words (30_encoding.md R72) -/

theorem decodeWord_of_opField_two {w : CmdWord} (h : opField w = 0x2#4) :
    decodeWord w = .setPixel (aField w) (bField w) (onField w) := by
  rw [decodeWord, h]; rfl

theorem decodeWord_of_opField_three {w : CmdWord} (h : opField w = 0x3#4) :
    decodeWord w = .getPixel (aField w) (bField w) := by
  rw [decodeWord, h]; rfl

theorem decodeWord_of_opField_six {w : CmdWord} (h : opField w = 0x6#4) : decodeWord w = .readByte (aField w) := by
  rw [decodeWord, h]; rfl

/-! ### Completing (30_encoding.md R75) -/

/-- The status `OK` is 0, so the result word is DATA alone. -/
theorem resultWord_ok (d : Byte) : resultWord .ok d = d.setWidth 16 := by
  change (0#4 ++ (0#4 ++ d : BitVec (4 + 8)) : BitVec (4 + (4 + 8))) = d.setWidth (4 + (4 + 8))
  rw [← BitVec.toNat_inj, BitVec.toNat_append, BitVec.toNat_append, BitVec.toNat_setWidth_of_le (by decide)]
  simp

theorem State.complete_eq (s : State) (d : Byte) : s.complete d = { s with result := some (d.setWidth 16) } := by
  rw [State.complete, resultWord_ok]

/-! ### What each operation answers -/

theorem exec_setPixel_eq (x y : Byte) (on : Bool) (s : State) :
    exec (.setPixel x y on) s = .next ((s.setPixel x.toNat y.toNat on).complete 0#8) := rfl

theorem exec_getPixel_eq (x y : Byte) (s : State) :
    exec (.getPixel x y) s = .next (s.complete ((BitVec.ofBool (s.getPixel x.toNat y.toNat)).setWidth 8)) := rfl

theorem exec_readByte_eq (addr : Byte) (s : State) :
    exec (.readByte addr) s = .next (s.complete (s.readByte addr.toNat)) := rfl

/-! ### SET_PIXEL (41_pixel_buffer.md R96) -/

/-- `setPixel` byte by byte, inside the buffer: the pixel's byte takes the mask, every other byte is kept. -/
theorem State.setPixel_memRead_pb (s : State) {x y : Nat} (on : Bool) (hx : x < 96) (hy : y < 16) (a : Nat) :
    (s.setPixel x y on).memRead .pb a =
      if a = y * 12 + x / 8 then if on then s.memRead .pb a ||| pbMask x else s.memRead .pb a &&& ~~~(pbMask x)
      else s.memRead .pb a := by
  split
  case isTrue ha =>
    subst ha
    rw [State.setPixel_eq_memWrite s on hx hy, State.memRead_memWrite_same _ (by decide)]
  case isFalse ha => exact State.setPixel_memRead_pb_other s x y on (.inl ha)

/-- A completed `setPixel` changes nothing but the Pixel Buffer and the result. -/
theorem State.setPixel_complete_eq (s : State) (x y : Nat) (on : Bool) :
    (s.setPixel x y on).complete 0#8 =
      { s with pb := ((s.setPixel x y on).complete 0#8).pb, result := some 0x0000#16 } := by
  rw [State.complete_eq, State.setPixel_eq]; rfl

/-- Settles O8: outside the buffer `setPixel` is the identity; inside, the state by its frame and `PB` byte by byte. -/
theorem setPixelWritesItsBit : Obligations.SetPixelWritesItsBit := by
  refine ⟨fun w hop => decodeWord_of_opField_two hop, fun x y on s => ⟨fun hclip => ?_, fun hx hy => ?_⟩⟩
  · rw [exec_setPixel_eq, State.setPixel_of_clipped s on hclip]; rfl
  · exact ⟨_, exec_setPixel_eq x y on s, State.setPixel_complete_eq s _ _ on, State.setPixel_memRead_pb s on hx hy⟩

/-! ### GET_PIXEL (41_pixel_buffer.md R98) -/

/-- `getPixel` is 1 exactly inside the buffer, where the masked byte is not 0. -/
theorem State.getPixel_eq_true_iff (s : State) (x y : Nat) :
    s.getPixel x y = true ↔ x < 96 ∧ y < 16 ∧ s.memRead .pb (y * 12 + x / 8) &&& (0x80#8 >>> (x % 8)) ≠ 0#8 := by
  by_cases hclip : 96 ≤ x ∨ 16 ≤ y
  · rw [State.getPixel_of_clipped s hclip]
    exact iff_of_false Bool.false_ne_true (by omega)
  · have hx : x < 96 := by omega
    have hy : y < 16 := by omega
    simp only [hx, hy, true_and]
    rw [State.getPixel, if_neg hclip, decide_eq_true_iff]
    rfl

/-- Settles O10: the condition of the statement is `getPixel`, and its two values are the two results. -/
theorem getPixelReturnsThePixel : Obligations.GetPixelReturnsThePixel := by
  refine ⟨fun w hop => decodeWord_of_opField_three hop, fun x y s => ?_⟩
  simp only [← State.getPixel_eq_true_iff]
  rw [exec_getPixel_eq, State.complete_eq]
  cases s.getPixel x.toNat y.toNat with
  | true => rfl
  | false => rfl

/-! ### READ_BYTE (41_pixel_buffer.md R100) -/

/-- Settles O12: the two results of the statement are the two branches of `readByte`. -/
theorem readByteReturnsTheByte : Obligations.ReadByteReturnsTheByte := by
  refine ⟨fun w hop => decodeWord_of_opField_six hop, fun addr s => ?_⟩
  rw [exec_readByte_eq, State.complete_eq, State.readByte]
  by_cases hout : 192 ≤ addr.toNat
  · rw [if_pos hout, if_pos hout]; rfl
  · rw [if_neg hout, if_neg hout]

end Sys2Proof.Machine
end

section
/-! The rasterizer of the host: RENDER_GLYPH (42_rasterizer.md R106). -/

namespace Sys2Proof.Machine

theorem decodeWord_of_opField_four {w : CmdWord} (h : opField w = 0x4#4) :
    decodeWord w = .renderGlyph (aField w) (bField w) (dField w) := by
  rw [decodeWord, h]; rfl

theorem exec_renderGlyph_eq (c row column : Byte) (s : State) :
    exec (.renderGlyph c row column) s = .next (s.conclude (s.renderGlyph c row.toNat column.toNat)) := rfl

/-! ### The three outcomes of `renderGlyph` -/

theorem State.renderGlyph_of_clipped (s : State) (c : Byte) {row column : Nat} (h : 2 ≤ row ∨ 16 ≤ column) :
    s.renderGlyph c row column = .ok s := if_pos h

theorem State.renderGlyph_of_not_fontHas (s : State) {c : Byte} {row column : Nat} (hr : row < 2) (hc : column < 16)
    (hf : ¬ FontHas s.cfg c) : s.renderGlyph c row column = .error .glyphRange := by
  rw [State.renderGlyph, if_neg (show ¬ cellClipped row column by omega), if_neg (mt (inFont_iff s.cfg c).mp hf)]

/-- Inside the grid RENDER_GLYPH of a code in the font completes the 48 pixel writes. -/
theorem exec_renderGlyph_of_fontHas {c row column : Byte} {s : State} (hr : row.toNat < 2) (hc : column.toNat < 16)
    (hf : FontHas s.cfg c) :
    exec (.renderGlyph c row column) s = .next ((s.drawGlyph c row.toNat column.toNat).complete 0#8) := by
  rw [exec_renderGlyph_eq, State.renderGlyph_of_inFont s hr hc ((inFont_iff s.cfg c).mpr hf)]; rfl

/-! ### The glyph drawn -/

/-- A completed `drawGlyph` changes nothing but the Pixel Buffer and the result. -/
theorem State.drawGlyph_complete_eq (s : State) (c : Byte) (row column : Nat) :
    (s.drawGlyph c row column).complete 0#8 =
      { s with pb := ((s.drawGlyph c row column).complete 0#8).pb, result := some 0x0000#16 } := by
  rw [State.complete_eq, State.drawGlyph_eq]; rfl

/-- Inside its cell a drawn glyph is its bits of `FONT` (42_rasterizer.md R107). -/
theorem State.pixel_drawGlyph_of_inCell (s : State) (c : Byte) {row column x y : Nat} (hr : row < 2) (hx : x < 96)
    (h : InCell row column x y) :
    (s.drawGlyph c row column).pixel x y = fontBit s.cfg c (y - row * 8) (x - column * 6) := by
  rw [State.pixel_drawGlyph s c hr y hx, if_pos (and_assoc.mp h), State.glyphBit_eq]

/-- Outside its cell a drawn glyph leaves every pixel as it was (42_rasterizer.md R107). -/
theorem State.pixel_drawGlyph_of_not_inCell (s : State) (c : Byte) {row column x y : Nat} (hr : row < 2) (hx : x < 96)
    (h : ¬ InCell row column x y) : (s.drawGlyph c row column).pixel x y = s.pixel x y := by
  rw [State.pixel_drawGlyph s c hr y hx, if_neg (mt and_assoc.mpr h)]

/-- Settles O13: a clipped cell leaves `renderGlyph` the identity, a code outside the font raises over the old state, and a
code in the font draws its glyph, known by its frame, pixel by pixel, and above the buffer. -/
theorem renderGlyphDrawsItsCell : Obligations.RenderGlyphDrawsItsCell := by
  refine ⟨fun w hop => decodeWord_of_opField_four hop, fun c row column s => ⟨fun hclip => ?_, fun hr hc hf => ?_,
    fun hr hc hf => ⟨_, exec_renderGlyph_of_fontHas hr hc hf, State.drawGlyph_complete_eq s c _ _, fun x y hx _ => ⟨?_, ?_⟩,
      fun a ha => ?_⟩⟩⟩
  · rw [exec_renderGlyph_eq, State.renderGlyph_of_clipped s c hclip]; rfl
  · rw [exec_renderGlyph_eq, State.renderGlyph_of_not_fontHas s hr hc hf]; rfl
  · exact State.pixel_drawGlyph_of_inCell s c hr hx
  · exact State.pixel_drawGlyph_of_not_inCell s c hr hx
  · exact State.drawGlyph_memRead_pb_ge s c _ _ ha

end Sys2Proof.Machine
end

section
/-! The cursor: HOME, CR, LF, and the cursor order of a displayed glyph (43_cursor.md R115 to R118, 44_interpreter.md R127,
R130, R131). -/

namespace Sys2Proof.Machine

/-! ### Feed keys and FEED (30_encoding.md R78, 44_interpreter.md R125) -/

/-- A key is the code of `IST` shifted above the byte (30_encoding.md R78). -/
theorem feedKey_eq_or (ist : Ist) (c : Byte) : feedKey ist c = ist.code.setWidth 11 <<< 8 ||| c.setWidth 11 := by
  rw [feedKey, BitVec.append_def, BitVec.shiftLeftZeroExtend_eq, BitVec.setWidth'_eq]

/-- A key written as `(IST << 8) | c` decodes to the instruction of the class of its byte. -/
theorem decodeKey_or (cfg : Config) (ist : Ist) (c : Byte) :
    decodeKey cfg (ist.code.setWidth 11 <<< 8 ||| c.setWidth 11) = .ok ((feedClass cfg ist c).instr c) := by
  rw [← feedKey_eq_or, decodeKey_feedKey]

/-- The step of a class is what its instruction answers. -/
theorem exec_instr_eq_feedStep (k : FeedClass) (c : Byte) (s : State) : exec (k.instr c) s = .next (s.feedStep k c) := by
  cases k <;> rfl

/-- FEED is the instruction of the class of its byte in the interpreter state (44_interpreter.md R125). -/
theorem exec_feed_of_feedClass {s : State} {ist : Ist} {c : Byte} {k : FeedClass} (hist : s.ist = ist)
    (hk : feedClass s.cfg ist c = k) : exec (.feed c) s = exec (k.instr c) s := by
  subst hist hk
  exact (exec_instr_eq_feedStep _ c s).symm

/-! ### HOME (44_interpreter.md R127) -/

theorem exec_idleHome_eq (s : State) : exec .idleHome s = .next (s.home.complete 0#8) := rfl

/-- Settles O17: the key and FEED by the class of `CODE_HOME` in IDLE, the answer by `home`. -/
theorem homeSendsTheCursorHome : Obligations.HomeSendsTheCursorHome := by
  refine ⟨fun cfg => ?_, fun s => ⟨?_, fun hidle => ?_⟩⟩
  · have hkey := decodeKey_or cfg .idle cfg.codeHome
    rwa [feedClass_idle_codeHome] at hkey
  · rw [exec_idleHome_eq, State.complete_eq]; rfl
  · exact exec_feed_of_feedClass hidle (feedClass_idle_codeHome s.cfg)

/-! ### CR and LF (44_interpreter.md R130, R131) -/

theorem feedClass_idle_cr (cfg : Config) : feedClass cfg .idle 0x0D#8 = .cr := rfl
theorem feedClass_idle_lf (cfg : Config) : feedClass cfg .idle 0x0A#8 = .lf := rfl

theorem exec_idleCr_eq (s : State) : exec .idleCr s = .next (s.carriageReturn.complete 0#8) := rfl
theorem exec_idleLf_eq (s : State) : exec .idleLf s = .next (s.lineFeed.complete 0#8) := rfl

/-- Adding one to the one-bit row toggles it (43_cursor.md R117). -/
theorem row_add_one (r : BitVec 1) : r + 1#1 = BitVec.ofNat 1 ((r.toNat + 1) % 2) := by
  rw [← BitVec.toNat_inj, BitVec.toNat_add, BitVec.toNat_ofNat, BitVec.toNat_ofNat]
  omega

/-- `lineFeed` with the row as the spec writes it (43_cursor.md R117). -/
theorem State.lineFeed_eq (s : State) : s.lineFeed = { s with crow := BitVec.ofNat 1 ((s.crow.toNat + 1) % 2) } := by
  rw [← row_add_one]; rfl

/-- Settles O18: the keys and FEED by the classes of the two bytes in IDLE, the answers by `carriageReturn` and
`lineFeed`. -/
theorem crAndLfMoveTheCursor : Obligations.CrAndLfMoveTheCursor := by
  refine ⟨fun cfg => ⟨decodeKey_or cfg .idle 0x0D#8, decodeKey_or cfg .idle 0x0A#8⟩,
    fun s => ⟨?_, ?_, fun hidle => ⟨?_, ?_⟩⟩⟩
  · rw [exec_idleCr_eq, State.complete_eq]; rfl
  · rw [exec_idleLf_eq, State.complete_eq, State.lineFeed_eq]; rfl
  · exact exec_feed_of_feedClass hidle (feedClass_idle_cr s.cfg)
  · exact exec_feed_of_feedClass hidle (feedClass_idle_lf s.cfg)

/-! ### The cursor order (43_cursor.md R118) -/

theorem State.advanceAfterGlyph_of_last_cell {s : State} (hcol : s.ccol = 15#4) (hrow : s.crow = 1#1) :
    s.advanceAfterGlyph = s.home := by
  rw [State.advanceAfterGlyph, if_pos hcol, if_pos (by rw [hrow]; decide)]

theorem State.advanceAfterGlyph_of_end_of_row_zero {s : State} (hcol : s.ccol = 15#4) (hrow : s.crow = 0#1) :
    s.advanceAfterGlyph = { s with crow := 1#1, ccol := 0#4 } := by
  rw [State.advanceAfterGlyph, if_pos hcol, if_neg (not_not_intro hrow)]

theorem column_add_one (c : BitVec 4) : c + 1#4 = BitVec.ofNat 4 (c.toNat + 1) := BitVec.add_def c 1#4

/-- Settles O19: one clause for each branch of `advanceAfterGlyph`. -/
theorem advanceWrapsAtTheRowEnds : Obligations.AdvanceWrapsAtTheRowEnds := by
  refine fun s => ⟨fun hcol hrow => ?_, fun hcol hrow => ?_, fun hcol => ?_⟩
  · exact State.advanceAfterGlyph_of_last_cell (BitVec.eq_of_toNat_eq hcol) (BitVec.eq_of_toNat_eq hrow)
  · exact State.advanceAfterGlyph_of_end_of_row_zero (BitVec.eq_of_toNat_eq hcol) (BitVec.eq_of_toNat_eq hrow)
  · rw [State.advanceAfterGlyph_of_lt s hcol, column_add_one]

end Sys2Proof.Machine
end

section
/-! The interpreter: FEED and its classes, and what the bytes of each interpreter state do (44_interpreter.md R125 to R152). -/

namespace Sys2Proof.Machine

/-! ### FEED performs the rule of a class (44_interpreter.md R125) -/

theorem decodeWord_of_opField_zero {w : CmdWord} (h : opField w = 0x0#4) : decodeWord w = .feed (aField w) := by
  rw [decodeWord, h]; rfl

/-- A procedure that answers a state completes over that state. -/
theorem State.conclude_of_ok {s t : State} {p : Except Status State} (h : p = .ok t) : s.conclude p = t.complete 0#8 := by
  rw [h]; rfl

/-- A procedure that raises leaves the state in which the operation began but for `FAULT` and the result. -/
theorem State.conclude_of_error {s : State} {p : Except Status State} {f : Status} (h : p = .error f) :
    s.conclude p = s.raise f := by
  rw [h]; rfl

/-- The step of CLS is a completed clear, since `fullClear` never raises. -/
theorem State.feedCls_of_fullClear {s t : State} (h : s.fullClear = .ok t) : s.feedCls = t.complete 0#8 :=
  State.conclude_of_ok h

/-- The step of EOL is a completed clear to the end of the row, after which `IST` is IDLE. -/
theorem State.feedEol_of_clearToEndOfLine {s t : State} (h : s.clearToEndOfLine = .ok t) :
    s.feedEol = { t with ist := .idle }.complete 0#8 := by
  rw [State.feedEol, h]; rfl

/-- Every class but GLYPH and COL completes with status `OK` and leaves `FAULT` as it was: the two classes with a procedure
that could raise, CLS and EOL, write only spaces, which are in every font. -/
theorem State.feedStep_completes (s : State) {k : FeedClass} (c : Byte) (hglyph : k ≠ .glyph) (hcol : k ≠ .col) :
    (s.feedStep k c).result = some 0x0000#16 ∧ (s.feedStep k c).fault = s.fault := by
  cases k with
  | glyph => exact absurd rfl hglyph
  | col => exact absurd rfl hcol
  | cls =>
    obtain ⟨t, hclear, hframe, -⟩ := s.fullClear_spec
    rw [State.feedStep, State.feedCls_of_fullClear hclear, hframe]
    exact ⟨rfl, rfl⟩
  | eol =>
    obtain ⟨t, hclear, hframe, -⟩ := s.clearToEndOfLine_spec
    rw [State.feedStep, State.feedEol_of_clearToEndOfLine hclear, hframe]
    exact ⟨rfl, rfl⟩
  | home | escape | cr | lf | rowcol | cfg | discard | row | cinc | cdec | binc | bdec | cnop => exact ⟨rfl, rfl⟩

/-- Settles O21: FEED and the instruction of the class both answer the step of the class. -/
theorem feedPerformsTheRuleOfItsClass : Obligations.FeedPerformsTheRuleOfItsClass :=
  ⟨fun _ hop => decodeWord_of_opField_zero hop, fun c s =>
    ⟨_, rfl, exec_instr_eq_feedStep _ c s, fun hglyph hcol => s.feedStep_completes c hglyph hcol⟩⟩

/-! ### GLYPH (44_interpreter.md R132, R152) -/

theorem feedClass_idle_of_ne {cfg : Config} {c : Byte} (hHome : c ≠ cfg.codeHome) (hCls : c ≠ cfg.codeCls)
    (hEsc : c ≠ 0x1B#8) (hCr : c ≠ 0x0D#8) (hLf : c ≠ 0x0A#8) : feedClass cfg .idle c = .glyph := by
  simp [feedClass, hHome, hCls, hEsc, hCr, hLf]

theorem exec_idleGlyph_eq (c : Byte) (s : State) : exec (.idleGlyph c) s = .next (s.conclude (s.displayGlyph c)) := rfl

/-- The state `displayGlyph` answers for a code in the font: the code in the `SHADOW` cell at the cursor, its glyph drawn
there, the cursor advanced. -/
def State.withGlyphDisplayed (s : State) (c : Byte) : State :=
  ((s.memWrite .shadow (cellAddr s.crow.toNat s.ccol.toNat) c).drawGlyph c s.crow.toNat s.ccol.toNat).advanceAfterGlyph

theorem State.displayGlyph_of_fontHas {s : State} {c : Byte} (h : FontHas s.cfg c) :
    s.displayGlyph c = .ok (s.withGlyphDisplayed c) :=
  s.displayGlyph_of_inFont ((inFont_iff s.cfg c).mpr h)

theorem State.displayGlyph_of_not_fontHas {s : State} {c : Byte} (h : ¬ FontHas s.cfg c) :
    s.displayGlyph c = .error .glyphRange :=
  s.displayGlyph_of_not_inFont (Bool.eq_false_of_not_eq_true (mt (inFont_iff s.cfg c).mp h))

/-- Where the cursor advances to depends on the cursor alone. -/
theorem State.advanceAfterGlyph_cursor_congr {s t : State} (hrow : t.crow = s.crow) (hcol : t.ccol = s.ccol) :
    t.advanceAfterGlyph.crow = s.advanceAfterGlyph.crow ∧ t.advanceAfterGlyph.ccol = s.advanceAfterGlyph.ccol := by
  rw [State.advanceAfterGlyph, State.advanceAfterGlyph, hrow, hcol]
  split
  case isTrue => split <;> exact ⟨rfl, rfl⟩
  case isFalse => exact ⟨rfl, rfl⟩

theorem State.withGlyphDisplayed_cursor (s : State) (c : Byte) :
    (s.withGlyphDisplayed c).crow = s.advanceAfterGlyph.crow ∧ (s.withGlyphDisplayed c).ccol = s.advanceAfterGlyph.ccol :=
  State.advanceAfterGlyph_cursor_congr (by simp) (by simp)

/-- Displaying a glyph writes no register but the cursor, and no event. -/
theorem State.withGlyphDisplayed_eq (s : State) (c : Byte) :
    s.withGlyphDisplayed c =
      { s with crow := (s.withGlyphDisplayed c).crow, ccol := (s.withGlyphDisplayed c).ccol,
               shadow := (s.withGlyphDisplayed c).shadow, pb := (s.withGlyphDisplayed c).pb } := by
  ext1 <;> simp [State.withGlyphDisplayed]

/-- A completed display changes nothing but the cursor, the two memories and the result. -/
theorem State.withGlyphDisplayed_complete_eq (s : State) (c : Byte) :
    (s.withGlyphDisplayed c).complete 0#8 =
      { s with crow := ((s.withGlyphDisplayed c).complete 0#8).crow, ccol := ((s.withGlyphDisplayed c).complete 0#8).ccol,
               shadow := ((s.withGlyphDisplayed c).complete 0#8).shadow, pb := ((s.withGlyphDisplayed c).complete 0#8).pb,
               result := some 0x0000#16 } := by
  rw [State.complete_eq, State.withGlyphDisplayed_eq]; rfl

/-- Displaying a glyph writes the `SHADOW` cell at the cursor and no other. -/
theorem State.withGlyphDisplayed_memRead_shadow (s : State) (c : Byte) (a : Nat) :
    (s.withGlyphDisplayed c).memRead .shadow a =
      if a = s.crow.toNat * 16 + s.ccol.toNat then c else s.memRead .shadow a := by
  rw [State.withGlyphDisplayed, State.advanceAfterGlyph_memRead, State.drawGlyph_memRead_shadow]
  split
  case isTrue ha => rw [ha]; exact s.memRead_memWrite_same (by decide) _ c
  case isFalse ha => exact s.memRead_memWrite_other c (.inr ha)

/-- Displaying a glyph draws it in the cell at the cursor. -/
theorem State.withGlyphDisplayed_pixel_of_inCell (s : State) (c : Byte) {x y : Nat} (hx : x < 96)
    (h : InCell s.crow.toNat s.ccol.toNat x y) :
    (s.withGlyphDisplayed c).pixel x y = fontBit s.cfg c (y - s.crow.toNat * 8) (x - s.ccol.toNat * 6) := by
  rw [State.withGlyphDisplayed, State.advanceAfterGlyph_pixel, State.pixel_drawGlyph_of_inCell _ c (row_lt _) hx h,
    State.memWrite_cfg]

/-- Displaying a glyph leaves every pixel outside the cell at the cursor. -/
theorem State.withGlyphDisplayed_pixel_of_not_inCell (s : State) (c : Byte) {x y : Nat} (hx : x < 96)
    (h : ¬ InCell s.crow.toNat s.ccol.toNat x y) : (s.withGlyphDisplayed c).pixel x y = s.pixel x y := by
  rw [State.withGlyphDisplayed, State.advanceAfterGlyph_pixel, State.pixel_drawGlyph_of_not_inCell _ c (row_lt _) hx h,
    State.memWrite_shadow_pixel]

theorem State.withGlyphDisplayed_memRead_pb_ge (s : State) (c : Byte) {a : Nat} (h : 192 ≤ a) :
    (s.withGlyphDisplayed c).memRead .pb a = s.memRead .pb a := by
  rw [State.withGlyphDisplayed, State.advanceAfterGlyph_memRead, State.drawGlyph_memRead_pb_ge _ c _ _ h,
    State.memWrite_shadow_memRead_pb]

theorem exec_idleGlyph_of_fontHas {c : Byte} {s : State} (h : FontHas s.cfg c) :
    exec (.idleGlyph c) s = .next ((s.withGlyphDisplayed c).complete 0#8) := by
  rw [exec_idleGlyph_eq, State.conclude_of_ok (State.displayGlyph_of_fontHas h)]

/-- Settles O26: in the font the answer is the completed display, known by its frame, its cursor and its two memories;
outside it the raise over the old state; and FEED by the class of the byte in IDLE. -/
theorem glyphByteIsDisplayed : Obligations.GlyphByteIsDisplayed := by
  refine fun c s => ⟨fun hfont => ?_, fun hfont => ?_, fun hidle hHome hCls hEsc hCr hLf => ?_⟩
  · obtain ⟨hrow, hcol⟩ := s.withGlyphDisplayed_cursor c
    refine ⟨_, exec_idleGlyph_of_fontHas hfont, s.withGlyphDisplayed_complete_eq c, ?_⟩
    simp only [State.complete_crow, State.complete_ccol, State.complete_memRead, State.complete_pixel]
    exact ⟨hrow, hcol, s.withGlyphDisplayed_memRead_shadow c, fun x y hx _ =>
      ⟨s.withGlyphDisplayed_pixel_of_inCell c hx, s.withGlyphDisplayed_pixel_of_not_inCell c hx⟩,
      fun a ha => s.withGlyphDisplayed_memRead_pb_ge c ha⟩
  · rw [exec_idleGlyph_eq, State.conclude_of_error (State.displayGlyph_of_not_fontHas hfont)]; rfl
  · exact exec_feed_of_feedClass hidle (feedClass_idle_of_ne hHome hCls hEsc hCr hLf)

/-! ### ESC and the byte after it (44_interpreter.md R129, R133, R134, R136) -/

theorem feedClass_idle_esc (cfg : Config) : feedClass cfg .idle 0x1B#8 = .escape := rfl
theorem feedClass_afterEsc_equals (cfg : Config) : feedClass cfg .afterEsc 0x3D#8 = .rowcol := rfl
theorem feedClass_afterEsc_exclamation (cfg : Config) : feedClass cfg .afterEsc 0x21#8 = .cfg := rfl

theorem feedClass_afterEsc_of_ne (cfg : Config) {c : Byte} (hRowcol : c ≠ 0x3D#8) (hCfg : c ≠ 0x21#8)
    (hEol : c ≠ 0x54#8) : feedClass cfg .afterEsc c = .discard := by
  simp [feedClass, hRowcol, hCfg, hEol]

theorem exec_idleEsc_eq (s : State) : exec .idleEsc s = .next ({ s with ist := .afterEsc }.complete 0#8) := rfl
theorem exec_aescRowcol_eq (s : State) : exec .aescRowcol s = .next ({ s with ist := .awaitRow }.complete 0#8) := rfl
theorem exec_aescCfg_eq (s : State) : exec .aescCfg s = .next ({ s with ist := .awaitCfg }.complete 0#8) := rfl
theorem exec_aescDiscard_eq (c : Byte) (s : State) :
    exec (.aescDiscard c) s = .next ({ s with ist := .idle }.complete 0#8) := rfl

/-- Settles O23: the keys and FEED by the classes of the bytes in IDLE and AFTER_ESC, the answers by the new `IST`. -/
theorem escapeBytesChangeOnlyTheInterpreterState : Obligations.EscapeBytesChangeOnlyTheInterpreterState := by
  refine ⟨fun cfg => ⟨decodeKey_or cfg .idle 0x1B#8, decodeKey_or cfg .afterEsc 0x3D#8, decodeKey_or cfg .afterEsc 0x21#8,
      fun c hRowcol hCfg hEol => ?_⟩,
    fun s => ⟨?_, ?_, ?_, fun c => ?_, fun hidle => ?_, fun hesc => ⟨?_, ?_, fun c hRowcol hCfg hEol => ?_⟩⟩⟩
  · have hkey := decodeKey_or cfg .afterEsc c
    rwa [feedClass_afterEsc_of_ne cfg hRowcol hCfg hEol] at hkey
  · rw [exec_idleEsc_eq, State.complete_eq]; rfl
  · rw [exec_aescRowcol_eq, State.complete_eq]; rfl
  · rw [exec_aescCfg_eq, State.complete_eq]; rfl
  · rw [exec_aescDiscard_eq, State.complete_eq]; rfl
  · exact exec_feed_of_feedClass hidle (feedClass_idle_esc s.cfg)
  · exact exec_feed_of_feedClass hesc (feedClass_afterEsc_equals s.cfg)
  · exact exec_feed_of_feedClass hesc (feedClass_afterEsc_exclamation s.cfg)
  · exact exec_feed_of_feedClass hesc (feedClass_afterEsc_of_ne s.cfg hRowcol hCfg hEol)

/-! ### The row byte (44_interpreter.md R139) -/

theorem feedClass_awaitRow (cfg : Config) (c : Byte) : feedClass cfg .awaitRow c = .row := rfl

/-- The low bit of the byte is its value modulo 2. -/
theorem rowOfByte_eq (c : Byte) : rowOfByte c = BitVec.ofNat 1 (c.toNat % 2) := by
  rw [← BitVec.toNat_inj, rowOfByte, BitVec.toNat_setWidth, BitVec.toNat_and, BitVec.toNat_ofNat, BitVec.toNat_ofNat]
  exact congrArg (· % 2 ^ 1) (Nat.and_one_is_mod c.toNat)

theorem exec_arow_eq (c : Byte) (s : State) :
    exec (.arow c) s = .next ({ s with crow := rowOfByte c, ist := .awaitCol }.complete 0#8) := rfl

/-- Settles O28: every byte is of class ROW in AWAIT_ROW, and the row written is the low bit of the byte. -/
theorem rowByteSetsTheRow : Obligations.RowByteSetsTheRow := by
  refine ⟨fun cfg c => decodeKey_or cfg .awaitRow c, fun c s => ⟨?_, fun hrow => ?_⟩⟩
  · rw [exec_arow_eq, State.complete_eq, rowOfByte_eq]; rfl
  · exact exec_feed_of_feedClass hrow (feedClass_awaitRow s.cfg c)

/-! ### The column byte (44_interpreter.md R141) -/

theorem feedClass_awaitCol (cfg : Config) (c : Byte) : feedClass cfg .awaitCol c = .col := rfl

/-- The subtraction of the column does not wrap from 0x20 on. -/
theorem toNat_columnValue_of_ge {c : Byte} (h : 0x20 ≤ c.toNat) : (columnValue c).toNat = c.toNat - 0x20 :=
  BitVec.toNat_sub_of_le (BitVec.le_def.mpr h)

/-- The column is clamped exactly outside 0x20..0x2F: below 0x20 the subtraction wraps to 0xE0 or more. -/
theorem columnClamped_iff (c : Byte) : columnClamped c = true ↔ c.toNat < 0x20 ∨ 0x2F < c.toNat := by
  rw [columnClamped, decide_eq_true_iff, columnValue, BitVec.toNat_sub, BitVec.toNat_ofNat]
  have hlt : c.toNat < 256 := c.isLt
  omega

theorem columnOfByte_of_clamped {c : Byte} (h : columnClamped c = true) : columnOfByte c = 15#4 := if_pos h

theorem columnOfByte_of_not_clamped {c : Byte} (h : ¬ columnClamped c = true) :
    columnOfByte c = BitVec.ofNat 4 (c.toNat - 0x20) := by
  rw [columnClamped_iff] at h
  rw [columnOfByte, if_neg (mt (columnClamped_iff c).mp h), ← toNat_columnValue_of_ge (by omega)]
  rfl

theorem exec_acol_of_clamped {c : Byte} (s : State) (h : columnClamped c = true) :
    exec (.acol c) s = .next ({ s with ccol := 15#4, ist := .idle }.raise .colClamped) := by
  rw [← columnOfByte_of_clamped h]
  exact congrArg Host.Outcome.next (if_pos h)

theorem exec_acol_of_not_clamped {c : Byte} (s : State) (h : ¬ columnClamped c = true) :
    exec (.acol c) s = .next ({ s with ccol := BitVec.ofNat 4 (c.toNat - 0x20), ist := .idle }.complete 0#8) := by
  rw [← columnOfByte_of_not_clamped h]
  exact congrArg Host.Outcome.next (if_neg h)

/-- Settles O29: every byte is of class COL in AWAIT_COL, and the two answers are those of a column that is or is not
clamped. -/
theorem columnByteSetsTheColumnClamped : Obligations.ColumnByteSetsTheColumnClamped := by
  refine ⟨fun cfg c => decodeKey_or cfg .awaitCol c, fun c s => ⟨fun hlo hhi => ?_, fun hout => ?_, fun hcol => ?_⟩⟩
  · have hfit : ¬ columnClamped c = true := by rw [columnClamped_iff]; omega
    rw [exec_acol_of_not_clamped s hfit, State.complete_eq]; rfl
  · rw [exec_acol_of_clamped s ((columnClamped_iff c).mpr hout)]; rfl
  · exact exec_feed_of_feedClass hcol (feedClass_awaitCol s.cfg c)

/-! ### The configuration bytes (44_interpreter.md R142 to R148) -/

theorem feedClass_awaitCfg_upperC (cfg : Config) : feedClass cfg .awaitCfg 0x43#8 = .cinc := rfl
theorem feedClass_awaitCfg_lowerC (cfg : Config) : feedClass cfg .awaitCfg 0x63#8 = .cdec := rfl
theorem feedClass_awaitCfg_upperB (cfg : Config) : feedClass cfg .awaitCfg 0x42#8 = .binc := rfl
theorem feedClass_awaitCfg_lowerB (cfg : Config) : feedClass cfg .awaitCfg 0x62#8 = .bdec := rfl

theorem feedClass_awaitCfg_of_ne (cfg : Config) {c : Byte} (hCinc : c ≠ 0x43#8) (hCdec : c ≠ 0x63#8)
    (hBinc : c ≠ 0x42#8) (hBdec : c ≠ 0x62#8) : feedClass cfg .awaitCfg c = .cnop := by
  simp [feedClass, hCinc, hCdec, hBinc, hBdec]

/-- A completed push: IDLE, one event of the values as they stand, status `OK`. -/
theorem State.pushConfig_complete_eq (s : State) :
    s.pushConfig.complete 0#8 =
      { s with ist := .idle, ev := s.ev ++ [.configPush s.contrast s.brightness], result := some 0x0000#16 } := by
  rw [State.complete_eq]; rfl

theorem exec_cinc_eq (s : State) :
    exec .cinc s = .next ({ s with contrast := s.contrast + 1#8 }.pushConfig.complete 0#8) := rfl
theorem exec_cdec_eq (s : State) :
    exec .cdec s = .next ({ s with contrast := s.contrast + 255#8 }.pushConfig.complete 0#8) := rfl
theorem exec_binc_eq (s : State) :
    exec .binc s = .next ({ s with brightness := s.brightness + 1#8 }.pushConfig.complete 0#8) := rfl
theorem exec_bdec_eq (s : State) :
    exec .bdec s = .next ({ s with brightness := s.brightness + 255#8 }.pushConfig.complete 0#8) := rfl
theorem exec_cnop_eq (c : Byte) (s : State) : exec (.cnop c) s = .next (s.pushConfig.complete 0#8) := rfl

/-- Settles O30: the contrast pushed is the contrast after the update, a sum of bytes. -/
theorem contrastBytesStepTheContrast : Obligations.ContrastBytesStepTheContrast := by
  refine ⟨fun cfg => ⟨decodeKey_or cfg .awaitCfg 0x43#8, decodeKey_or cfg .awaitCfg 0x63#8⟩,
    fun s => ⟨⟨s.contrast + 1#8, BitVec.toNat_add _ _, ?_⟩, ⟨s.contrast + 255#8, BitVec.toNat_add _ _, ?_⟩,
      fun hcfg => ⟨?_, ?_⟩⟩⟩
  · rw [exec_cinc_eq, State.pushConfig_complete_eq]
  · rw [exec_cdec_eq, State.pushConfig_complete_eq]
  · exact exec_feed_of_feedClass hcfg (feedClass_awaitCfg_upperC s.cfg)
  · exact exec_feed_of_feedClass hcfg (feedClass_awaitCfg_lowerC s.cfg)

/-- Settles O31: the brightness pushed is the brightness after the update, a sum of bytes. -/
theorem brightnessBytesStepTheBrightness : Obligations.BrightnessBytesStepTheBrightness := by
  refine ⟨fun cfg => ⟨decodeKey_or cfg .awaitCfg 0x42#8, decodeKey_or cfg .awaitCfg 0x62#8⟩,
    fun s => ⟨⟨s.brightness + 1#8, BitVec.toNat_add _ _, ?_⟩, ⟨s.brightness + 255#8, BitVec.toNat_add _ _, ?_⟩,
      fun hcfg => ⟨?_, ?_⟩⟩⟩
  · rw [exec_binc_eq, State.pushConfig_complete_eq]
  · rw [exec_bdec_eq, State.pushConfig_complete_eq]
  · exact exec_feed_of_feedClass hcfg (feedClass_awaitCfg_upperB s.cfg)
  · exact exec_feed_of_feedClass hcfg (feedClass_awaitCfg_lowerB s.cfg)

/-- Settles O32: the answer is the push alone, the key and FEED by the class of the byte in AWAIT_CFG. -/
theorem otherConfigBytesOnlyPush : Obligations.OtherConfigBytesOnlyPush := by
  refine fun c s => ⟨?_, fun hCinc hCdec hBinc hBdec => ⟨fun cfg => ?_, fun hcfg => ?_⟩⟩
  · rw [exec_cnop_eq, State.pushConfig_complete_eq]
  · have hkey := decodeKey_or cfg .awaitCfg c
    rwa [feedClass_awaitCfg_of_ne cfg hCinc hCdec hBinc hBdec] at hkey
  · exact exec_feed_of_feedClass hcfg (feedClass_awaitCfg_of_ne s.cfg hCinc hCdec hBinc hBdec)

end Sys2Proof.Machine
end

section
/-! INSPECT: the registers and the `SHADOW` bytes the host can read, and the reserved selectors (45_redraw_init.md R170). -/

namespace Sys2Proof.Machine

theorem decodeWord_of_opField_seven {w : CmdWord} (h : opField w = 0x7#4) : decodeWord w = .inspect (aField w) := by
  rw [decodeWord, h]; rfl

/-! ### What a selector above the registers selects -/

theorem selected_of_gt_five {sel : Byte} (h : 5 < sel.toNat) :
    selected sel = if 0x40 ≤ sel.toNat ∧ sel.toNat ≤ 0x5F then .shadow (sel.toNat - 0x40) else .unlisted := by
  unfold selected
  split
  case h_7 => rfl
  all_goals omega

theorem selected_of_shadow_range {sel : Byte} (hlo : 0x40 ≤ sel.toNat) (hhi : sel.toNat ≤ 0x5F) :
    selected sel = .shadow (sel.toNat - 0x40) := by
  rw [selected_of_gt_five (by omega), if_pos ⟨hlo, hhi⟩]

theorem selected_of_reserved_range {sel : Byte} (h : (0x05 < sel.toNat ∧ sel.toNat < 0x40) ∨ 0x5F < sel.toNat) :
    selected sel = .unlisted := by
  rw [selected_of_gt_five (by omega), if_neg (by omega)]

/-! ### What INSPECT answers -/

theorem exec_inspect_eq (sel : Byte) (s : State) : exec (.inspect sel) s = execInspect sel s := rfl

/-- A register of at most eight bits is returned zero-extended to the result word. -/
theorem State.complete_setWidth_eq (s : State) {n : Nat} (v : BitVec n) (h : n ≤ 8) :
    s.complete (v.setWidth 8) = { s with result := some (v.setWidth 16) } := by
  rw [State.complete_eq, BitVec.setWidth_setWidth (by omega)]

/-- `IST` is returned by its code (10_state.md R27). -/
theorem exec_inspect_ist (s : State) :
    exec (.inspect 0x00#8) s = .next { s with result := some (BitVec.ofNat 16 s.ist.code.toNat) } := by
  rw [BitVec.ofNat_toNat]
  exact congrArg Host.Outcome.next (s.complete_setWidth_eq s.ist.code (by decide))

theorem exec_inspect_crow (s : State) :
    exec (.inspect 0x01#8) s = .next { s with result := some (s.crow.setWidth 16) } :=
  congrArg Host.Outcome.next (s.complete_setWidth_eq s.crow (by decide))

theorem exec_inspect_ccol (s : State) :
    exec (.inspect 0x02#8) s = .next { s with result := some (s.ccol.setWidth 16) } :=
  congrArg Host.Outcome.next (s.complete_setWidth_eq s.ccol (by decide))

theorem exec_inspect_contrast (s : State) :
    exec (.inspect 0x03#8) s = .next { s with result := some (s.contrast.setWidth 16) } :=
  congrArg Host.Outcome.next (s.complete_eq s.contrast)

theorem exec_inspect_brightness (s : State) :
    exec (.inspect 0x04#8) s = .next { s with result := some (s.brightness.setWidth 16) } :=
  congrArg Host.Outcome.next (s.complete_eq s.brightness)

theorem exec_inspect_fault (s : State) :
    exec (.inspect 0x05#8) s = .next { s with result := some (s.fault.setWidth 16) } :=
  congrArg Host.Outcome.next (s.complete_eq s.fault)

theorem exec_inspect_of_shadow {sel : Byte} {a : Nat} (s : State) (h : selected sel = .shadow a) :
    exec (.inspect sel) s = .next { s with result := some ((s.memRead .shadow a).setWidth 16) } := by
  rw [exec_inspect_eq, execInspect, h, ← State.complete_eq]

theorem exec_inspect_of_unlisted {sel : Byte} (s : State) (h : selected sel = .unlisted) :
    exec (.inspect sel) s = .next (s.raise .reserved) := by
  rw [exec_inspect_eq, execInspect, h]

/-- Settles O39: one clause for each register, and for each of the two ranges above them what its selectors select. -/
theorem inspectReturnsTheSelected : Obligations.InspectReturnsTheSelected := by
  refine ⟨fun w hop => decodeWord_of_opField_seven hop, fun s => ⟨⟨_, exec_inspect_ist s, ?_⟩, exec_inspect_crow s,
    exec_inspect_ccol s, exec_inspect_contrast s, exec_inspect_brightness s, exec_inspect_fault s,
    fun sel hlo hhi => ?_, fun sel hout => ?_⟩⟩
  · cases s.ist <;> rfl
  · exact exec_inspect_of_shadow s (selected_of_shadow_range hlo hhi)
  · exact exec_inspect_of_unlisted s (selected_of_reserved_range hout)

end Sys2Proof.Machine
end

section
/-! The exceptions: the reserved codes, the status each operation reports, and the events (60_exceptions.md R176, R179,
R186). -/

namespace Sys2Proof

/-! ### The interpreter state of a class (30_encoding.md R80) -/

/-- The interpreter state whose bytes a class is of (30_encoding.md R80). -/
def FeedClass.ist : FeedClass → Ist
  | .home | .cls | .escape | .cr | .lf | .glyph => .idle
  | .rowcol | .cfg | .eol | .discard => .afterEsc
  | .row => .awaitRow
  | .col => .awaitCol
  | .cinc | .cdec | .binc | .bdec | .cnop => .awaitCfg

@[simp] theorem feedClass_ist (cfg : Config) (ist : Ist) (c : Byte) : (feedClass cfg ist c).ist = ist := by
  unfold feedClass
  repeat' split
  all_goals rfl

/-- The class of a byte tells the interpreter state it is taken in. -/
theorem ist_of_feedClass {cfg : Config} {ist : Ist} {c : Byte} {k : FeedClass} (h : feedClass cfg ist c = k) :
    ist = k.ist := by
  rw [← h, feedClass_ist]

end Sys2Proof

namespace Sys2Proof.Machine

/-! ### Reserved codes (60_exceptions.md R179) -/

/-- Bit 31 is the top bit of the operation code, so it is set exactly in the codes from 8 on (30_encoding.md R71, R82). -/
theorem opField_ge_eight_iff (w : CmdWord) : 8 ≤ (opField w).toNat ↔ w.getLsbD 31 = true := by
  have hmsb : (opField w).msb = w.getLsbD 31 := by simp [opField, BitVec.msb_eq_getLsbD_last]
  rw [← hmsb, BitVec.msb_eq_decide, decide_eq_true_iff]

/-- The operation codes from 8 on are reserved (30_encoding.md R82). -/
theorem decodeWord_of_opField_ge_eight {w : CmdWord} (h : 8 ≤ (opField w).toNat) : decodeWord w = .reserved (opField w) := by
  unfold decodeWord
  split
  case h_9 => rfl
  all_goals omega

theorem exec_reserved_eq (op : BitVec 4) (s : State) : exec (.reserved op) s = .next (s.raise .reserved) := rfl

/-- Settles O40: bit 31 makes the operation code reserved, and both operations answer the raise of `RESERVED`. -/
theorem reservedCodesRaiseReserved : Obligations.ReservedCodesRaiseReserved := by
  refine ⟨fun w hbit => ?_, exec_reserved_eq, fun sel s hout => ?_⟩
  · exact decodeWord_of_opField_ge_eight ((opField_ge_eight_iff w).mpr hbit)
  · exact exec_inspect_of_unlisted s (selected_of_reserved_range hout)

/-! ### What FEED, INIT and REDRAW answer -/

theorem exec_feed_eq (c : Byte) (s : State) : exec (.feed c) s = .next (s.feedStep (feedClass s.cfg s.ist c) c) := rfl
theorem exec_init_eq (s : State) : exec .init s = .next (s.conclude { s with ist := .idle }.fullClear) := rfl
theorem exec_redraw_eq (s : State) : exec .redraw s = .next (s.conclude s.redraw) := rfl

theorem exec_answers_next (i : Instr) (s : State) : ∃ t, exec i s = .next t := by
  cases i <;> exact ⟨_, rfl⟩

/-! ### The statuses raised (60_exceptions.md R176) -/

theorem exec_of_raisesColClamped {i : Instr} {s : State} (h : RaisesColClamped i s) :
    exec i s = .next ({ s with ccol := 15#4, ist := .idle }.raise .colClamped) := by
  obtain ⟨c, hout, hi⟩ := h
  have hacol := exec_acol_of_clamped s ((columnClamped_iff c).mpr hout)
  obtain rfl | ⟨rfl, hcol⟩ := hi
  · exact hacol
  · exact (exec_feed_of_feedClass hcol (feedClass_awaitCol s.cfg c)).trans hacol

theorem exec_of_raisesGlyphRange {i : Instr} {s : State} (h : RaisesGlyphRange i s) :
    exec i s = .next (s.raise .glyphRange) := by
  obtain ⟨c, hfont, hi⟩ := h
  have hglyph : exec (.idleGlyph c) s = .next (s.raise .glyphRange) := by
    rw [exec_idleGlyph_eq, State.conclude_of_error (State.displayGlyph_of_not_fontHas hfont)]
  obtain rfl | ⟨rfl, hclass⟩ | ⟨row, column, hrow, hcolumn, rfl⟩ := hi
  · exact hglyph
  · exact (exec_feed_of_feedClass rfl hclass).trans hglyph
  · rw [exec_renderGlyph_eq, State.conclude_of_error (s.renderGlyph_of_not_fontHas hrow hcolumn hfont)]

theorem exec_of_raisesReserved {i : Instr} (s : State) (h : RaisesReserved i) : exec i s = .next (s.raise .reserved) := by
  obtain ⟨op, rfl⟩ | ⟨sel, hout, rfl⟩ := h
  · exact exec_reserved_eq op s
  · exact exec_inspect_of_unlisted s (selected_of_reserved_range hout)

/-! ### The status `OK` (60_exceptions.md R176, 30_encoding.md R75) -/

/-- The answer `t` reports `OK` for `i` performed in `s`: `FAULT` as it was, and DATA 0 but for the operations that read. -/
def ReportsOk (i : Instr) (s t : State) : Prop :=
  ∃ data : Byte, t.result = some (data.setWidth 16) ∧ t.fault = s.fault ∧
    (data = 0#8 ∨ (∃ x y, i = .getPixel x y) ∨ (∃ addr, i = .readByte addr) ∨ ∃ sel, i = .inspect sel)

theorem reportsOk_of_result_zero {i : Instr} {s t : State} (h : t.result = some 0x0000#16 ∧ t.fault = s.fault) :
    ReportsOk i s t :=
  ⟨0#8, h.1, h.2, .inl rfl⟩

theorem reportsOk_complete_zero {i : Instr} {s t : State} (h : t.fault = s.fault) : ReportsOk i s (t.complete 0#8) :=
  reportsOk_of_result_zero ⟨rfl, h⟩

/-- An operation whose procedure answers a state with `FAULT` as it was reports `OK`. -/
theorem reportsOk_conclude {i : Instr} {s t u : State} {p : Except Status State} (hp : p = .ok t) (h : t.fault = s.fault) :
    ReportsOk i s (u.conclude p) := by
  rw [State.conclude_of_ok hp]
  exact reportsOk_complete_zero h

theorem reportsOk_complete_data {i : Instr} (s : State) (d : Byte)
    (h : (∃ x y, i = .getPixel x y) ∨ (∃ addr, i = .readByte addr) ∨ ∃ sel, i = .inspect sel) :
    ReportsOk i s (s.complete d) :=
  ⟨d, congrArg some (resultWord_ok d), rfl, .inr h⟩

/-- Every class completes with status `OK` where a GLYPH byte is in the font and a COL byte is a column of the grid. -/
theorem State.feedStep_completes_of_legal_byte (s : State) {k : FeedClass} {c : Byte}
    (hglyph : k = .glyph → FontHas s.cfg c) (hcol : k = .col → ¬ (c.toNat < 0x20 ∨ 0x2F < c.toNat)) :
    (s.feedStep k c).result = some 0x0000#16 ∧ (s.feedStep k c).fault = s.fault := by
  by_cases hg : k = .glyph
  · subst hg
    have hstep : s.feedStep .glyph c = (s.withGlyphDisplayed c).complete 0#8 :=
      State.conclude_of_ok (State.displayGlyph_of_fontHas (hglyph rfl))
    rw [hstep, State.withGlyphDisplayed_complete_eq]
    exact ⟨rfl, rfl⟩
  by_cases hc : k = .col
  · subst hc
    have hfit : ¬ columnClamped c = true := mt (columnClamped_iff c).mp (hcol rfl)
    rw [State.feedStep, State.feedCol, if_neg hfit]
    exact ⟨rfl, rfl⟩
  · exact s.feedStep_completes c hg hc

/-- An unlisted selector is one of the two reserved ranges (45_redraw_init.md R170). -/
theorem selected_eq_unlisted_iff (sel : Byte) :
    selected sel = .unlisted ↔ (0x05 < sel.toNat ∧ sel.toNat < 0x40) ∨ 0x5F < sel.toNat := by
  refine ⟨fun h => ?_, selected_of_reserved_range⟩
  by_cases hgt : 5 < sel.toNat
  · rw [selected_of_gt_five hgt] at h
    split at h
    case isTrue => cases h
    case isFalse => omega
  · unfold selected at h
    split at h
    case h_7 => simp only [imp_false] at *; omega
    all_goals cases h

/-- INSPECT of a listed selector completes with what it selects. -/
theorem exec_inspect_of_listed {sel : Byte} (s : State) (h : selected sel ≠ .unlisted) :
    ∃ d, exec (.inspect sel) s = .next (s.complete d) := by
  rw [exec_inspect_eq, execInspect]
  cases hsel : selected sel with
  | unlisted => exact absurd hsel h
  | ist | crow | ccol | contrast | brightness | fault | shadow => exact ⟨_, rfl⟩

theorem exec_feed_reportsOk {c : Byte} {s : State} (hcol : ¬ RaisesColClamped (.feed c) s)
    (hglyph : ¬ RaisesGlyphRange (.feed c) s) : ∃ t, exec (.feed c) s = .next t ∧ ReportsOk (.feed c) s t := by
  refine ⟨_, exec_feed_eq c s,
    reportsOk_of_result_zero (s.feedStep_completes_of_legal_byte (fun hk => ?_) fun hk hout => ?_)⟩
  · by_contra hno
    exact hglyph ⟨c, hno, .inr (.inl ⟨rfl, hk⟩)⟩
  · exact hcol ⟨c, hout, .inr ⟨rfl, ist_of_feedClass hk⟩⟩

theorem exec_idleGlyph_reportsOk {c : Byte} {s : State} (hglyph : ¬ RaisesGlyphRange (.idleGlyph c) s) :
    ∃ t, exec (.idleGlyph c) s = .next t ∧ ReportsOk (.idleGlyph c) s t := by
  have hfont : FontHas s.cfg c := by
    by_contra hno
    exact hglyph ⟨c, hno, .inl rfl⟩
  exact ⟨_, exec_instr_eq_feedStep .glyph c s,
    reportsOk_of_result_zero (s.feedStep_completes_of_legal_byte (fun _ => hfont) nofun)⟩

theorem exec_acol_reportsOk {c : Byte} {s : State} (hcol : ¬ RaisesColClamped (.acol c) s) :
    ∃ t, exec (.acol c) s = .next t ∧ ReportsOk (.acol c) s t :=
  ⟨_, exec_instr_eq_feedStep .col c s,
    reportsOk_of_result_zero (s.feedStep_completes_of_legal_byte nofun fun _ hout => hcol ⟨c, hout, .inl rfl⟩)⟩

theorem exec_init_reportsOk (s : State) : ∃ t, exec .init s = .next t ∧ ReportsOk .init s t := by
  obtain ⟨t, hclear, hframe, -⟩ := ({ s with ist := .idle } : State).fullClear_spec
  exact ⟨_, exec_init_eq s, reportsOk_conclude hclear (by rw [hframe])⟩

theorem exec_redraw_reportsOk {s : State} (hfont : s.shadowInFont) :
    ∃ t, exec .redraw s = .next t ∧ ReportsOk .redraw s t := by
  obtain ⟨t, hok, hframe, -⟩ := s.redraw_spec hfont
  exact ⟨_, exec_redraw_eq s, reportsOk_conclude hok (by rw [hframe])⟩

theorem exec_renderGlyph_reportsOk {c row column : Byte} {s : State}
    (hglyph : ¬ RaisesGlyphRange (.renderGlyph c row column) s) :
    ∃ t, exec (.renderGlyph c row column) s = .next t ∧ ReportsOk (.renderGlyph c row column) s t := by
  refine ⟨_, exec_renderGlyph_eq c row column s, ?_⟩
  obtain ⟨-, hok⟩ | ⟨-, -, -, hok⟩ | ⟨hr, hc, hout, -⟩ := s.renderGlyph_cases c row.toNat column.toNat
  · exact reportsOk_conclude hok rfl
  · exact reportsOk_conclude hok (s.drawGlyph_fault c _ _)
  · have hno : ¬ FontHas s.cfg c := by simp [← inFont_iff, hout]
    exact absurd ⟨c, hno, .inr (.inr ⟨row, column, hr, hc, rfl⟩)⟩ hglyph

theorem exec_inspect_reportsOk {sel : Byte} (s : State) (hres : ¬ RaisesReserved (.inspect sel)) :
    ∃ t, exec (.inspect sel) s = .next t ∧ ReportsOk (.inspect sel) s t := by
  have hlisted : selected sel ≠ .unlisted := fun h => hres (.inr ⟨sel, (selected_eq_unlisted_iff sel).mp h, rfl⟩)
  obtain ⟨d, hd⟩ := exec_inspect_of_listed s hlisted
  exact ⟨_, hd, reportsOk_complete_data s d (.inr (.inr ⟨sel, rfl⟩))⟩

/-- An operation that meets no row of the table of statuses reports `OK` (60_exceptions.md R176). -/
theorem exec_reportsOk {i : Instr} {s : State} (hfont : s.shadowInFont) (hcol : ¬ RaisesColClamped i s)
    (hglyph : ¬ RaisesGlyphRange i s) (hres : ¬ RaisesReserved i) : ∃ t, exec i s = .next t ∧ ReportsOk i s t := by
  cases i with
  | feed c => exact exec_feed_reportsOk hcol hglyph
  | init => exact exec_init_reportsOk s
  | setPixel x y on => exact ⟨_, rfl, reportsOk_complete_zero (s.setPixel_fault _ _ on)⟩
  | getPixel x y => exact ⟨_, rfl, reportsOk_complete_data s _ (.inl ⟨x, y, rfl⟩)⟩
  | renderGlyph c row column => exact exec_renderGlyph_reportsOk hglyph
  | redraw => exact exec_redraw_reportsOk hfont
  | readByte addr => exact ⟨_, rfl, reportsOk_complete_data s _ (.inr (.inl ⟨addr, rfl⟩))⟩
  | inspect sel => exact exec_inspect_reportsOk s hres
  | reserved op => exact absurd (.inl ⟨op, rfl⟩) hres
  | idleGlyph c => exact exec_idleGlyph_reportsOk hglyph
  | acol c => exact exec_acol_reportsOk hcol
  | idleCls => exact ⟨_, rfl, reportsOk_of_result_zero (s.feedStep_completes (k := .cls) 0#8 nofun nofun)⟩
  | aescEol => exact ⟨_, rfl, reportsOk_of_result_zero (s.feedStep_completes (k := .eol) 0#8 nofun nofun)⟩
  | idleHome | idleEsc | idleCr | idleLf | aescRowcol | aescCfg | aescDiscard | arow | cinc | cdec | binc | bdec | cnop =>
    exact ⟨_, rfl, reportsOk_complete_zero rfl⟩

/-- Settles O44: the answer exists for every instruction, and it is the raise of the row met, or an `OK` where none is. -/
theorem statusesAreRaisedAsTabulated : Obligations.StatusesAreRaisedAsTabulated := by
  intro i s hfont
  obtain ⟨t, ht⟩ := exec_answers_next i s
  have eq_of_exec {u : State} (hu : exec i s = .next u) : t = u := Host.Outcome.next.inj (ht.symm.trans hu)
  refine ⟨t, ht, fun h => eq_of_exec (exec_of_raisesColClamped h), fun h => eq_of_exec (exec_of_raisesGlyphRange h),
    fun h => eq_of_exec (exec_of_raisesReserved s h), fun hcol hglyph hres => ?_⟩
  obtain ⟨u, hu, hok⟩ := exec_reportsOk hfont hcol hglyph hres
  rw [eq_of_exec hu]
  exact hok

/-! ### The events (60_exceptions.md R186) -/

theorem step_of_pending {s : State} {w : CmdWord} {rest : List CmdWord} (h : s.pending = w :: rest) :
    step s = exec (decodeWord w) { s with pending := rest } := by
  rw [step, h]

/-- A byte in IDLE is of class CLS exactly where it is `CODE_CLS` (30_encoding.md R80). -/
theorem feedClass_eq_cls_iff {cfg : Config} {ist : Ist} {c : Byte} :
    feedClass cfg ist c = .cls ↔ ist = .idle ∧ c = cfg.codeCls := by
  constructor
  · intro h
    obtain rfl : ist = .idle := ist_of_feedClass h
    refine ⟨rfl, ?_⟩
    rw [feedClass_idle_eq_listed, feedClassListed] at h
    split at h
    case isTrue => cases h
    split at h
    case isTrue hc => exact hc
    repeat' split at h
    all_goals cases h
  · rintro ⟨rfl, rfl⟩
    exact feedClass_idle_codeCls cfg

/-- An operation that clears the screen emits `DEVICE_INIT` of the configuration registers (45_redraw_init.md R163). -/
theorem State.conclude_fullClear_ev (s u : State) :
    (s.conclude u.fullClear).ev = u.ev ++ [.deviceInit u.contrast u.brightness] := by
  obtain ⟨t, hclear, hframe, -⟩ := u.fullClear_spec
  rw [State.conclude_of_ok hclear, State.complete_ev, hframe]

/-- An operation whose procedure emits nothing emits nothing, whether the procedure answers a state or raises. -/
theorem State.conclude_ev {s : State} {p : Except Status State} (h : ∀ t, p = .ok t → t.ev = s.ev) :
    (s.conclude p).ev = s.ev := by
  cases p with
  | ok t => exact h t rfl
  | error f => rfl

theorem State.redraw_ev {s t : State} (h : s.redraw = .ok t) : t.ev = s.ev := by
  by_cases hfont : s.shadowInFont
  · obtain ⟨u, hu, hframe, -⟩ := s.redraw_spec hfont
    rw [← Except.ok.inj (hu.symm.trans h), hframe]
  · cases (s.redraw_error hfont).symm.trans h

theorem State.renderGlyph_ev {s t : State} {c : Byte} {row column : Nat} (h : s.renderGlyph c row column = .ok t) :
    t.ev = s.ev := by
  obtain ⟨-, hok⟩ | ⟨-, -, -, hok⟩ | ⟨-, -, -, herr⟩ := s.renderGlyph_cases c row column
  · rw [← Except.ok.inj (hok.symm.trans h)]
  · rw [← Except.ok.inj (hok.symm.trans h), State.drawGlyph_ev]
  · cases herr.symm.trans h

theorem State.displayGlyph_ev {s t : State} {c : Byte} (h : s.displayGlyph c = .ok t) : t.ev = s.ev := by
  by_cases hfont : FontHas s.cfg c
  · rw [← Except.ok.inj ((State.displayGlyph_of_fontHas hfont).symm.trans h), State.withGlyphDisplayed_eq]
  · cases (State.displayGlyph_of_not_fontHas hfont).symm.trans h

/-- INSPECT emits nothing, whether the selector is listed or raises. -/
theorem exec_inspect_ev {sel : Byte} {s t : State} (h : exec (.inspect sel) s = .next t) : t.ev = s.ev := by
  by_cases hlisted : selected sel = .unlisted
  · rw [← Host.Outcome.next.inj ((exec_inspect_of_unlisted s hlisted).symm.trans h), State.raise_ev]
  · obtain ⟨d, hd⟩ := exec_inspect_of_listed s hlisted
    rw [← Host.Outcome.next.inj (hd.symm.trans h), State.complete_ev]

/-- The step of every byte of AWAIT_CFG emits `CONFIG_PUSH` of the registers after it (44_interpreter.md R142). -/
theorem State.feedStep_ev_of_awaitCfg (s : State) {k : FeedClass} (c : Byte) (h : k.ist = .awaitCfg) :
    (s.feedStep k c).ev = s.ev ++ [.configPush (s.feedStep k c).contrast (s.feedStep k c).brightness] := by
  cases k with
  | cinc | cdec | binc | bdec | cnop => rfl
  | home | cls | escape | cr | lf | glyph | rowcol | cfg | eol | discard | row | col => cases h

/-- No class but CLS and those of AWAIT_CFG emits an event. -/
theorem State.feedStep_ev_of_other (s : State) {k : FeedClass} (c : Byte) (hcls : k ≠ .cls) (hcfg : k.ist ≠ .awaitCfg) :
    (s.feedStep k c).ev = s.ev := by
  cases k with
  | cls => exact absurd rfl hcls
  | cinc | cdec | binc | bdec | cnop => exact absurd rfl hcfg
  | glyph => exact State.conclude_ev fun _ => State.displayGlyph_ev
  | eol =>
    obtain ⟨t, hclear, hframe, -⟩ := s.clearToEndOfLine_spec
    rw [State.feedStep, State.feedEol_of_clearToEndOfLine hclear, hframe]
    rfl
  | col =>
    rw [State.feedStep, State.feedCol]
    split <;> rfl
  | home | escape | cr | lf | rowcol | cfg | discard | row => rfl

/-- A command word is FEED, INIT, or an operation that emits no event (60_exceptions.md R186). -/
theorem decodeWord_feed_or_init_or_keeps_ev (w : CmdWord) (s : State) :
    (∃ c, decodeWord w = .feed c) ∨ decodeWord w = .init ∨ ∃ t, exec (decodeWord w) s = .next t ∧ t.ev = s.ev := by
  unfold decodeWord
  split
  case h_1 => exact .inl ⟨_, rfl⟩
  case h_2 => exact .inr (.inl rfl)
  case h_3 => exact .inr (.inr ⟨_, rfl, s.setPixel_ev _ _ _⟩)
  case h_5 => exact .inr (.inr ⟨_, rfl, State.conclude_ev fun _ => State.renderGlyph_ev⟩)
  case h_6 => exact .inr (.inr ⟨_, rfl, State.conclude_ev fun _ => State.redraw_ev⟩)
  case h_8 => exact .inr (.inr ⟨_, rfl, exec_inspect_ev rfl⟩)
  case h_4 | h_7 | h_9 => exact .inr (.inr ⟨_, rfl, rfl⟩)

theorem feed_answer_eq {s t : State} {c : Byte} (h : exec (.feed c) s = .next t) :
    t = s.feedStep (feedClass s.cfg s.ist c) c :=
  (Host.Outcome.next.inj h).symm

/-- INIT, and FEED of `CODE_CLS` in IDLE, emit `DEVICE_INIT` of the registers before them. -/
theorem exec_ev_of_clear {i : Instr} {s t : State} (h : i = .init ∨ (s.ist = .idle ∧ i = .feed s.cfg.codeCls))
    (ht : exec i s = .next t) : t.ev = s.ev ++ [.deviceInit s.contrast s.brightness] := by
  obtain rfl | ⟨hidle, rfl⟩ := h
  · rw [← Host.Outcome.next.inj ((exec_init_eq s).symm.trans ht), State.conclude_fullClear_ev]
  · rw [feed_answer_eq ht, feedClass_eq_cls_iff.mpr ⟨hidle, rfl⟩]
    exact s.conclude_fullClear_ev s

/-- FEED in AWAIT_CFG emits `CONFIG_PUSH` of the registers after it. -/
theorem exec_ev_of_configByte {c : Byte} {s t : State} (hcfg : s.ist = .awaitCfg) (ht : exec (.feed c) s = .next t) :
    t.ev = s.ev ++ [.configPush t.contrast t.brightness] := by
  rw [feed_answer_eq ht]
  exact s.feedStep_ev_of_awaitCfg c ((feedClass_ist _ _ c).trans hcfg)

/-- Every other command word emits nothing. -/
theorem exec_ev_of_other {w : CmdWord} {s t : State}
    (hclear : ¬ (decodeWord w = .init ∨ (s.ist = .idle ∧ decodeWord w = .feed s.cfg.codeCls)))
    (hpush : ¬ (s.ist = .awaitCfg ∧ ∃ c, decodeWord w = .feed c)) (ht : exec (decodeWord w) s = .next t) :
    t.ev = s.ev := by
  obtain ⟨c, hw⟩ | hw | ⟨u, hu, hev⟩ := decodeWord_feed_or_init_or_keeps_ev w s
  · have hcls : feedClass s.cfg s.ist c ≠ .cls := fun hk => by
      obtain ⟨hidle, rfl⟩ := feedClass_eq_cls_iff.mp hk
      exact hclear (.inr ⟨hidle, hw⟩)
    have hcfg : (feedClass s.cfg s.ist c).ist ≠ .awaitCfg := fun hk =>
      hpush ⟨(feedClass_ist _ _ c).symm.trans hk, c, hw⟩
    rw [hw] at ht
    rw [feed_answer_eq ht]
    exact s.feedStep_ev_of_other c hcls hcfg
  · exact absurd (.inl hw) hclear
  · rw [Host.Outcome.next.inj (ht.symm.trans hu), hev]

/-- Settles O46: a step is the decoded instruction over the state without its word, and the three clauses are what an
instruction of each kind emits. -/
theorem eventsAreEmittedAsTabulated : Obligations.EventsAreEmittedAsTabulated := by
  intro s w rest hpending
  let u : State := { s with pending := rest }
  obtain ⟨t, ht⟩ := exec_answers_next (decodeWord w) u
  refine ⟨t, (step_of_pending hpending).trans ht, fun hclear => exec_ev_of_clear (s := u) hclear ht, ?_,
    fun hclear hpush => exec_ev_of_other (s := u) hclear hpush ht⟩
  rintro ⟨hcfg, c, hw⟩
  rw [hw] at ht
  exact exec_ev_of_configByte (s := u) hcfg ht

end Sys2Proof.Machine
end

section
/-! The configuration and the Font Table with it are constant (70_reset_and_hazards.md R204). -/

namespace Sys2Proof.Machine

/-- The Font Table lists no byte, so what it reads is the configuration's alone (10_state.md R34). -/
theorem State.memRead_fontrom_congr {s t : State} (hc : t.cfg = s.cfg) (a : Nat) :
    t.memRead .fontrom a = s.memRead .fontrom a :=
  State.memRead_congr hc rfl a

/-! ### The procedures that may raise -/

/-- An operation keeps the configuration where its procedure does; one that raises stands over the state it began in. -/
theorem State.conclude_cfg {s : State} {p : Except Status State} (h : ∀ t, p = .ok t → t.cfg = s.cfg) :
    (s.conclude p).cfg = s.cfg := by
  cases p with
  | ok t => exact h t rfl
  | error f => rfl

theorem State.renderGlyph_cfg {s t : State} {c : Byte} {row column : Nat} (h : s.renderGlyph c row column = .ok t) :
    t.cfg = s.cfg := by
  obtain ⟨-, hok⟩ | ⟨-, -, -, hok⟩ | ⟨-, -, -, herr⟩ := s.renderGlyph_cases c row column
  · rw [← Except.ok.inj (hok.symm.trans h)]
  · rw [← Except.ok.inj (hok.symm.trans h), State.drawGlyph_cfg]
  · cases herr.symm.trans h

theorem State.displayGlyph_cfg {s t : State} {c : Byte} (h : s.displayGlyph c = .ok t) : t.cfg = s.cfg := by
  by_cases hfont : FontHas s.cfg c
  · rw [← Except.ok.inj ((State.displayGlyph_of_fontHas hfont).symm.trans h), State.withGlyphDisplayed_eq]
  · cases (State.displayGlyph_of_not_fontHas hfont).symm.trans h

theorem State.redraw_cfg {s t : State} (h : s.redraw = .ok t) : t.cfg = s.cfg := by
  by_cases hfont : s.shadowInFont
  · obtain ⟨u, hu, hframe, -⟩ := s.redraw_spec hfont
    rw [← Except.ok.inj (hu.symm.trans h), hframe]
  · cases (s.redraw_error hfont).symm.trans h

theorem State.fullClear_cfg {s t : State} (h : s.fullClear = .ok t) : t.cfg = s.cfg := by
  obtain ⟨u, hu, hframe, -⟩ := s.fullClear_spec
  rw [← Except.ok.inj (hu.symm.trans h), hframe]

/-! ### The feed steps, the instructions and the step -/

/-- Every class keeps the configuration: GLYPH, CLS and EOL by their procedures, the others writing registers only. -/
theorem State.feedStep_cfg (s : State) (k : FeedClass) (c : Byte) : (s.feedStep k c).cfg = s.cfg := by
  cases k with
  | glyph => exact State.conclude_cfg fun _ => State.displayGlyph_cfg
  | cls =>
    rw [State.feedStep, State.feedCls]
    exact State.conclude_cfg fun _ => State.fullClear_cfg
  | eol =>
    obtain ⟨t, hclear, hframe, -⟩ := s.clearToEndOfLine_spec
    rw [State.feedStep, State.feedEol_of_clearToEndOfLine hclear, hframe]
    rfl
  | col =>
    rw [State.feedStep, State.feedCol]
    split <;> rfl
  | home | escape | cr | lf | rowcol | cfg | discard | row | cinc | cdec | binc | bdec | cnop => rfl

/-- INSPECT keeps the configuration, whether the selector is listed or raises. -/
theorem exec_inspect_cfg {sel : Byte} {s t : State} (h : exec (.inspect sel) s = .next t) : t.cfg = s.cfg := by
  by_cases hlisted : selected sel = .unlisted
  · rw [← Host.Outcome.next.inj ((exec_inspect_of_unlisted s hlisted).symm.trans h), State.raise_cfg]
  · obtain ⟨d, hd⟩ := exec_inspect_of_listed s hlisted
    rw [← Host.Outcome.next.inj (hd.symm.trans h), State.complete_cfg]

/-- Every instruction answers a state with the configuration it found. -/
theorem exec_answers_next_with_cfg (i : Instr) (s : State) : ∃ t, exec i s = .next t ∧ t.cfg = s.cfg := by
  cases i with
  | feed c => exact ⟨_, exec_feed_eq c s, s.feedStep_cfg _ c⟩
  | init => exact ⟨_, exec_init_eq s, State.conclude_cfg fun _ => State.fullClear_cfg⟩
  | setPixel x y on => exact ⟨_, exec_setPixel_eq x y on s, s.setPixel_cfg _ _ on⟩
  | renderGlyph c row column => exact ⟨_, exec_renderGlyph_eq c row column s,
    State.conclude_cfg fun _ => State.renderGlyph_cfg⟩
  | redraw => exact ⟨_, exec_redraw_eq s, State.conclude_cfg fun _ => State.redraw_cfg⟩
  | inspect sel => exact ⟨_, rfl, exec_inspect_cfg rfl⟩
  | idleCls => exact ⟨_, rfl, s.feedStep_cfg .cls 0#8⟩
  | idleGlyph c => exact ⟨_, rfl, s.feedStep_cfg .glyph c⟩
  | aescEol => exact ⟨_, rfl, s.feedStep_cfg .eol 0#8⟩
  | acol c => exact ⟨_, rfl, s.feedStep_cfg .col c⟩
  | getPixel | readByte | reserved | idleHome | idleEsc | idleCr | idleLf | aescRowcol | aescCfg | aescDiscard | arow
  | cinc | cdec | binc | bdec | cnop =>
    exact ⟨_, rfl, rfl⟩

/-- A step keeps the configuration: without a word it changes nothing, with one it performs an instruction. -/
theorem step_cfg {s t : State} (h : step s = .next t) : t.cfg = s.cfg := by
  cases hpending : s.pending with
  | nil =>
    rw [step, hpending] at h
    rw [Host.Outcome.next.inj h]
  | cons w rest =>
    obtain ⟨u, hu, hcfg⟩ := exec_answers_next_with_cfg (decodeWord w) { s with pending := rest }
    rw [Host.Outcome.next.inj (h.symm.trans ((step_of_pending hpending).trans hu)), hcfg]

/-- Settles O49: a step keeps the configuration, and the Font Table reads as the configuration says. -/
theorem theConfigurationIsConstant : Obligations.TheConfigurationIsConstant := by
  intro s t hstep
  have hcfg : t.cfg = s.cfg := step_cfg hstep
  exact ⟨hcfg, State.memRead_fontrom_congr hcfg⟩

end Sys2Proof.Machine
end

section
/-! The decoder and the encoder: decoding an encoding, the ignored bits of a command word, the rejected feed keys
(30_encoding.md sections 1 to 4). -/

namespace Sys2Proof.Machine

/-! ### The operation codes that stand alone (30_encoding.md R72) -/

theorem decodeWord_of_opField_one {w : CmdWord} (h : opField w = 0x1#4) : decodeWord w = .init := by
  rw [decodeWord, h]; rfl

theorem decodeWord_of_opField_five {w : CmdWord} (h : opField w = 0x5#4) : decodeWord w = .redraw := by
  rw [decodeWord, h]; rfl

/-! ### Decoding an encoding -/

/-- A key whose byte is of class `k` decodes to the instruction of `k`. -/
theorem decode_feedKey_of_feedClass {cfg : Config} {ist : Ist} {c : Byte} {k : FeedClass} (h : feedClass cfg ist c = k) :
    decode cfg (.key (feedKey ist c)) = .ok (k.instr c) := by
  rw [decode, decodeKey_feedKey, h]

theorem isGlyphByte_iff {cfg : Config} {c : Byte} :
    isGlyphByte cfg c = true ↔ c ≠ cfg.codeHome ∧ c ≠ cfg.codeCls ∧ c ≠ 0x1B#8 ∧ c ≠ 0x0D#8 ∧ c ≠ 0x0A#8 := by
  simp [isGlyphByte, and_assoc]

theorem isDiscardByte_iff {c : Byte} : isDiscardByte c = true ↔ c ≠ 0x3D#8 ∧ c ≠ 0x21#8 ∧ c ≠ 0x54#8 := by
  simp [isDiscardByte, and_assoc]

theorem isCnopByte_iff {c : Byte} : isCnopByte c = true ↔ c ≠ 0x43#8 ∧ c ≠ 0x63#8 ∧ c ≠ 0x42#8 ∧ c ≠ 0x62#8 := by
  simp [isCnopByte, and_assoc]

theorem decodeWord_cmdWord_reserved {op : BitVec 4} (h : isReservedOp op = true) :
    decodeWord (cmdWord op false 0#8 0#8 0#8) = .reserved op := by
  have hop : 8 ≤ (opField (cmdWord op false 0#8 0#8 0#8)).toNat := by
    rw [opField_cmdWord]
    exact of_decide_eq_true h
  rw [decodeWord_of_opField_ge_eight hop, opField_cmdWord]

/-- Settles O2: a command word by its fields, a feed key by the class of its byte, which for the "every other byte" classes
is what well-formedness says. -/
theorem decodeOfEncodeIsTheInstruction : Obligations.DecodeOfEncodeIsTheInstruction := by
  intro cfg i hwf
  cases i with
  | feed | init | setPixel | getPixel | renderGlyph | redraw | readByte | inspect =>
    simp [encode, decode, decodeWord]
  | reserved op => exact congrArg Except.ok (decodeWord_cmdWord_reserved hwf)
  | idleHome => exact decode_feedKey_of_feedClass (feedClass_idle_codeHome cfg)
  | idleCls => exact decode_feedKey_of_feedClass (feedClass_idle_codeCls cfg)
  | idleGlyph c =>
    obtain ⟨hHome, hCls, hEsc, hCr, hLf⟩ := isGlyphByte_iff.mp hwf
    exact decode_feedKey_of_feedClass (feedClass_idle_of_ne hHome hCls hEsc hCr hLf)
  | aescDiscard c =>
    obtain ⟨hRowcol, hCfg, hEol⟩ := isDiscardByte_iff.mp hwf
    exact decode_feedKey_of_feedClass (feedClass_afterEsc_of_ne cfg hRowcol hCfg hEol)
  | cnop c =>
    obtain ⟨hCinc, hCdec, hBinc, hBdec⟩ := isCnopByte_iff.mp hwf
    exact decode_feedKey_of_feedClass (feedClass_awaitCfg_of_ne cfg hCinc hCdec hBinc hBdec)
  | idleEsc | idleCr | idleLf | aescRowcol | aescCfg | aescEol | arow | acol | cinc | cdec | binc | bdec =>
    exact decode_feedKey_of_feedClass rfl

/-! ### The operations of the command word (30_encoding.md R70) -/

/-- The operations a command word can stand for, and their operands. -/
inductive HostOp : Instr → Prop where
  | feed (c : Byte) : HostOp (.feed c)
  | init : HostOp .init
  | setPixel (x y : Byte) (on : Bool) : HostOp (.setPixel x y on)
  | getPixel (x y : Byte) : HostOp (.getPixel x y)
  | renderGlyph (c row column : Byte) : HostOp (.renderGlyph c row column)
  | redraw : HostOp .redraw
  | readByte (addr : Byte) : HostOp (.readByte addr)
  | inspect (sel : Byte) : HostOp (.inspect sel)
  | reserved (op : BitVec 4) (h : isReservedOp op = true) : HostOp (.reserved op)

/-- Every command word stands for one of the nine operations (30_encoding.md R70, R74). -/
theorem hostOp_decodeWord (w : CmdWord) : HostOp (decodeWord w) := by
  by_cases hres : 8 ≤ (opField w).toNat
  · rw [decodeWord_of_opField_ge_eight hres]
    exact .reserved _ (decide_eq_true hres)
  · unfold decodeWord
    split
    case h_9 => simp only [imp_false] at *; omega
    all_goals constructor

theorem HostOp.wf {i : Instr} (h : HostOp i) (cfg : Config) : i.wf cfg = true := by
  cases h with
  | reserved op hop => exact hop
  | feed | init | setPixel | getPixel | renderGlyph | redraw | readByte | inspect => rfl

/-! ### The ignored bits of a command word (30_encoding.md R71) -/

/-- Words that agree under a mask agree in every field the mask covers. -/
theorem extractLsb'_eq_of_and_eq {w w' m : CmdWord} (start len : Nat) (h : w &&& m = w' &&& m)
    (hm : m.extractLsb' start len = BitVec.allOnes len) : w.extractLsb' start len = w'.extractLsb' start len := by
  have hfield := congrArg (BitVec.extractLsb' start len) h
  simpa only [BitVec.extractLsb'_and, hm, BitVec.and_allOnes] using hfield

theorem opField_eq_of_and_eq {w w' m : CmdWord} (h : w &&& m = w' &&& m) (hm : opField m = BitVec.allOnes 4) :
    opField w = opField w' := extractLsb'_eq_of_and_eq 28 4 h hm
theorem dField_eq_of_and_eq {w w' m : CmdWord} (h : w &&& m = w' &&& m) (hm : dField m = BitVec.allOnes 8) :
    dField w = dField w' := extractLsb'_eq_of_and_eq 16 8 h hm
theorem bField_eq_of_and_eq {w w' m : CmdWord} (h : w &&& m = w' &&& m) (hm : bField m = BitVec.allOnes 8) :
    bField w = bField w' := extractLsb'_eq_of_and_eq 8 8 h hm
theorem aField_eq_of_and_eq {w w' m : CmdWord} (h : w &&& m = w' &&& m) (hm : aField m = BitVec.allOnes 8) :
    aField w = aField w' := extractLsb'_eq_of_and_eq 0 8 h hm

theorem onField_eq_of_and_eq {w w' m : CmdWord} (h : w &&& m = w' &&& m) (hm : onField m = true) :
    onField w = onField w' := by
  have hbit : onField (w &&& m) = onField (w' &&& m) := congrArg onField h
  have hand : ∀ v, onField (v &&& m) = onField v := fun v => by
    rw [onField, BitVec.getLsbD_and, show m.getLsbD 24 = true from hm, Bool.and_true, onField]
  rwa [hand, hand] at hbit

/-- Every operation reads the operation code. -/
theorem opField_usedBits : ∀ op : BitVec 4, opField (usedBits op) = BitVec.allOnes 4 := by decide

/-- Words of one operation code that agree on the bits it reads decode alike. -/
theorem decodeWord_eq_of_usedBits {w w' : CmdWord} {op : BitVec 4} (hop : opField w = op) (hop' : opField w' = op)
    (h : w &&& usedBits op = w' &&& usedBits op) : decodeWord w = decodeWord w' := by
  unfold decodeWord
  rw [hop, hop']
  split
  case h_1 hcode =>
    obtain rfl : op = 0#4 := BitVec.eq_of_toNat_eq hcode
    rw [aField_eq_of_and_eq h rfl]
  case h_3 hcode =>
    obtain rfl : op = 2#4 := BitVec.eq_of_toNat_eq hcode
    rw [aField_eq_of_and_eq h rfl, bField_eq_of_and_eq h rfl, onField_eq_of_and_eq h rfl]
  case h_4 hcode =>
    obtain rfl : op = 3#4 := BitVec.eq_of_toNat_eq hcode
    rw [aField_eq_of_and_eq h rfl, bField_eq_of_and_eq h rfl]
  case h_5 hcode =>
    obtain rfl : op = 4#4 := BitVec.eq_of_toNat_eq hcode
    rw [aField_eq_of_and_eq h rfl, bField_eq_of_and_eq h rfl, dField_eq_of_and_eq h rfl]
  case h_7 hcode =>
    obtain rfl : op = 6#4 := BitVec.eq_of_toNat_eq hcode
    rw [aField_eq_of_and_eq h rfl]
  case h_8 hcode =>
    obtain rfl : op = 7#4 := BitVec.eq_of_toNat_eq hcode
    rw [aField_eq_of_and_eq h rfl]
  case h_2 | h_6 | h_9 => rfl

/-- Settles O3: the operation code is among the bits every operation reads, so the two words are of one operation. -/
theorem unusedBitsAreIgnored : Obligations.UnusedBitsAreIgnored := by
  refine ⟨fun cfg w => (hostOp_decodeWord w).wf cfg, fun w w' h => ?_⟩
  exact decodeWord_eq_of_usedBits rfl (opField_eq_of_and_eq h (opField_usedBits _)).symm h

/-! ### The feed keys (10_state.md R27, 30_encoding.md R78, R80) -/

theorem ofCode_of_ge_five : ∀ k : BitVec 3, 5 ≤ k.toNat → Ist.ofCode k = none := by decide

theorem ofCode_of_lt_five : ∀ k : BitVec 3, k.toNat < 5 → (Ist.ofCode k).isSome = true := by decide

/-- A byte of class GLYPH has failed the tests for the five control codes. -/
theorem isGlyphByte_of_feedClass {cfg : Config} {ist : Ist} {c : Byte} (h : feedClass cfg ist c = .glyph) :
    isGlyphByte cfg c = true := by
  obtain rfl : ist = .idle := ist_of_feedClass h
  refine isGlyphByte_iff.mpr ⟨?_, ?_, ?_, ?_, ?_⟩ <;> rintro rfl
  · cases (feedClass_idle_codeHome cfg).symm.trans h
  · cases (feedClass_idle_codeCls cfg).symm.trans h
  · cases (feedClass_idle_esc cfg).symm.trans h
  · cases (feedClass_idle_cr cfg).symm.trans h
  · cases (feedClass_idle_lf cfg).symm.trans h

/-- A byte of class DISCARD has failed the tests for the three commands. -/
theorem isDiscardByte_of_feedClass {cfg : Config} {ist : Ist} {c : Byte} (h : feedClass cfg ist c = .discard) :
    isDiscardByte c = true := by
  obtain rfl : ist = .afterEsc := ist_of_feedClass h
  refine isDiscardByte_iff.mpr ⟨?_, ?_, ?_⟩ <;> rintro rfl <;> cases h

/-- A byte of class CNOP has failed the tests for the four configuration steps. -/
theorem isCnopByte_of_feedClass {cfg : Config} {ist : Ist} {c : Byte} (h : feedClass cfg ist c = .cnop) :
    isCnopByte c = true := by
  obtain rfl : ist = .awaitCfg := ist_of_feedClass h
  refine isCnopByte_iff.mpr ⟨?_, ?_, ?_, ?_⟩ <;> rintro rfl <;> cases h

/-- The instruction of the class of a byte is well-formed: only the "every other byte" classes ask something of it. -/
theorem feedClass_instr_wf (cfg : Config) (ist : Ist) (c : Byte) : ((feedClass cfg ist c).instr c).wf cfg = true := by
  cases hk : feedClass cfg ist c with
  | glyph => exact isGlyphByte_of_feedClass hk
  | discard => exact isDiscardByte_of_feedClass hk
  | cnop => exact isCnopByte_of_feedClass hk
  | home | cls | escape | cr | lf | rowcol | cfg | eol | row | col | cinc | cdec | binc | bdec => rfl

/-- Settles O4: a code from 5 on stands for no interpreter state, every other for one, whose classes are well-formed. -/
theorem feedKeysRejectedByInterpreterState : Obligations.FeedKeysRejectedByInterpreterState := by
  refine fun cfg k => ⟨fun hge => ?_, fun hlt => ?_⟩
  · rw [decodeKey, ofCode_of_ge_five (keyIst k) hge]
    rfl
  · obtain ⟨ist, hist⟩ := Option.isSome_iff_exists.mp (ofCode_of_lt_five (keyIst k) hlt)
    exact ⟨_, by rw [decodeKey, hist], feedClass_instr_wf cfg ist (keyByte k)⟩

/-- Settles O1: the command words are closed terms, the keys decode by the class of their byte. -/
theorem writtenWordsDecode : Obligations.WrittenWordsDecode := by
  refine ⟨by decide, by decide, by decide, by decide, by decide, by decide, by decide, by decide, by decide, by decide,
    by decide, fun cfg => ⟨?_, ?_, ?_, ?_, ?_⟩⟩
  · exact decodeKey_or cfg .idle 0x1B#8
  · exact decodeKey_or cfg .afterEsc 0x54#8
  · exact decodeKey_or cfg .awaitRow 0xFF#8
  · exact decodeKey_or cfg .awaitCol 0x25#8
  · exact decodeKey_or cfg .awaitCfg 0x63#8

end Sys2Proof.Machine
end

section
/-! The step: what a command word can change, each register by the operations that write it, and the invariant of the block
(00_scope.md R16, 10_state.md section 1, 60_exceptions.md section 1). -/

namespace Sys2Proof.Machine

/-! ### One step (00_scope.md R16, 20_memory.md R62) -/

theorem step_of_no_pending {s : State} (h : s.pending = []) : step s = .next s := by
  rw [step, h]

/-- All a step can do: nothing where the host issues no word, else the instruction the next word decodes to. -/
theorem step_cases {s t : State} (h : step s = .next t) :
    t = s ∨ ∃ w rest, s.pending = w :: rest ∧ exec (decodeWord w) { s with pending := rest } = .next t := by
  cases hpending : s.pending with
  | nil => exact .inl (Host.Outcome.next.inj (h.symm.trans (step_of_no_pending hpending)))
  | cons w rest => exact .inr ⟨w, rest, rfl, (step_of_pending hpending).symm.trans h⟩

/-- Settles O6: the two branches of `step`. -/
theorem stepRunsTheDecodedInstruction : Obligations.StepRunsTheDecodedInstruction :=
  ⟨fun _ _ _ hpending => step_of_pending hpending, fun _ hpending => step_of_no_pending hpending⟩

/-- Settles O7: every instruction answers a next state, so a step does. -/
theorem everyStepHasANextState : Obligations.EveryStepHasANextState := by
  intro s
  cases hpending : s.pending with
  | nil => exact ⟨s, step_of_no_pending hpending⟩
  | cons w rest =>
    rw [step_of_pending hpending]
    exact exec_answers_next _ _

/-! ### What the procedures write -/

/-- What holds of a completed procedure and of every raise over the old state holds of the operation. -/
theorem State.conclude_of {P : State → Prop} {s : State} {p : Except Status State}
    (hok : ∀ t, p = .ok t → P (t.complete 0#8)) (hraise : ∀ f, P (s.raise f)) : P (s.conclude p) := by
  cases p with
  | ok t => exact hok t rfl
  | error f => exact hraise f

theorem State.renderGlyph_frame {s t : State} {c : Byte} {row column : Nat} (h : s.renderGlyph c row column = .ok t) :
    t = { s with pb := t.pb } := by
  obtain ⟨-, hok⟩ | ⟨-, -, -, hok⟩ | ⟨-, -, -, herr⟩ := s.renderGlyph_cases c row column
  · rw [← Except.ok.inj (hok.symm.trans h)]
  · rw [← Except.ok.inj (hok.symm.trans h)]
    exact s.drawGlyph_eq c row column
  · cases herr.symm.trans h

theorem State.redraw_frame {s t : State} (h : s.redraw = .ok t) : t = { s with pb := t.pb } := by
  by_cases hfont : s.shadowInFont
  · obtain ⟨u, hu, hframe, -⟩ := s.redraw_spec hfont
    rwa [← Except.ok.inj (hu.symm.trans h)]
  · cases (s.redraw_error hfont).symm.trans h

/-- `displayGlyph` answers a state only for a code in the font. -/
theorem State.displayGlyph_ok {s t : State} {c : Byte} (h : s.displayGlyph c = .ok t) :
    FontHas s.cfg c ∧ t = s.withGlyphDisplayed c := by
  by_cases hfont : FontHas s.cfg c
  · exact ⟨hfont, (Except.ok.inj ((State.displayGlyph_of_fontHas hfont).symm.trans h)).symm⟩
  · cases (State.displayGlyph_of_not_fontHas hfont).symm.trans h

/-! ### The operations but FEED and INIT (10_state.md section 1, the column "written by") -/

/-- An operation whose procedure writes `PB` alone writes `PB`, `FAULT` and the result alone. -/
theorem State.conclude_frame {s : State} {p : Except Status State} (h : ∀ t, p = .ok t → t = { s with pb := t.pb }) :
    s.conclude p =
      { s with pb := (s.conclude p).pb, fault := (s.conclude p).fault, result := (s.conclude p).result } := by
  refine State.conclude_of (P := fun u => u = { s with pb := u.pb, fault := u.fault, result := u.result })
    (fun t ht => ?_) fun f => rfl
  rw [h t ht]
  rfl

/-- All INSPECT can do: complete with what it selects, or raise `RESERVED`. -/
theorem exec_inspect_cases (sel : Byte) (s : State) :
    (∃ d, exec (.inspect sel) s = .next (s.complete d)) ∨ exec (.inspect sel) s = .next (s.raise .reserved) := by
  by_cases hlisted : selected sel = .unlisted
  · exact .inr (exec_inspect_of_unlisted s hlisted)
  · exact .inl (exec_inspect_of_listed s hlisted)

/-- INSPECT writes `FAULT` and the result alone. -/
theorem exec_inspect_frame (sel : Byte) (s : State) :
    ∃ t, exec (.inspect sel) s = .next t ∧ t = { s with fault := t.fault, result := t.result } := by
  obtain ⟨d, hd⟩ | hraise := exec_inspect_cases sel s
  · exact ⟨_, hd, rfl⟩
  · exact ⟨_, hraise, rfl⟩

/-- Every operation of the command word but FEED and INIT writes `PB`, `FAULT` and the result alone. -/
theorem HostOp.exec_frame {i : Instr} (h : HostOp i) (hfeed : ∀ c, i ≠ .feed c) (hinit : i ≠ .init) (s : State) :
    ∃ t, exec i s = .next t ∧ t = { s with pb := t.pb, fault := t.fault, result := t.result } := by
  cases h with
  | feed c => exact absurd rfl (hfeed c)
  | init => exact absurd rfl hinit
  | setPixel x y on => exact ⟨_, exec_setPixel_eq x y on s, by rw [State.setPixel_complete_eq]⟩
  | renderGlyph c row column =>
    exact ⟨_, exec_renderGlyph_eq c row column s, State.conclude_frame fun _ => State.renderGlyph_frame⟩
  | redraw => exact ⟨_, exec_redraw_eq s, State.conclude_frame fun _ => State.redraw_frame⟩
  | inspect sel =>
    obtain ⟨t, ht, hframe⟩ := exec_inspect_frame sel s
    exact ⟨t, ht, by rw [hframe]⟩
  | getPixel | readByte | reserved => exact ⟨_, rfl, rfl⟩

/-- No operation that reads writes `PB`. -/
theorem exec_pb_of_reading {i : Instr} (s : State)
    (h : (∃ x y, i = .getPixel x y) ∨ (∃ a, i = .readByte a) ∨ (∃ a, i = .inspect a) ∨ ∃ op, i = .reserved op) :
    ∃ t, exec i s = .next t ∧ t.pb = s.pb := by
  obtain ⟨x, y, rfl⟩ | ⟨a, rfl⟩ | ⟨sel, rfl⟩ | ⟨op, rfl⟩ := h
  · exact ⟨_, exec_getPixel_eq x y s, rfl⟩
  · exact ⟨_, exec_readByte_eq a s, rfl⟩
  · obtain ⟨t, ht, hframe⟩ := exec_inspect_frame sel s
    exact ⟨t, ht, by rw [hframe]⟩
  · exact ⟨_, exec_reserved_eq op s, rfl⟩

/-- Settles O48: the frame of every operation but FEED and INIT, and `PB` under the operations that read. -/
theorem onlyTheNamedOperationsWrite : Obligations.OnlyTheNamedOperationsWrite := by
  rintro i s hfeed hinit ⟨w, rfl⟩
  obtain ⟨t, ht, hframe⟩ := (hostOp_decodeWord w).exec_frame hfeed hinit s
  refine ⟨t, ht, hframe, fun hread => ?_⟩
  obtain ⟨u, hu, hpb⟩ := exec_pb_of_reading s hread
  rw [Host.Outcome.next.inj (ht.symm.trans hu), hpb]

/-! ### CONTRAST and BRIGHTNESS (10_state.md R29) -/

/-- All a class of AWAIT_CFG can do: update the two registers and push them (44_interpreter.md R142). -/
theorem State.feedStep_of_awaitCfg (s : State) {k : FeedClass} (c : Byte) (h : k.ist = .awaitCfg) :
    ∃ v w, s.feedStep k c = { s with contrast := v, brightness := w }.pushConfig.complete 0#8 := by
  cases k with
  | cinc | cdec | binc | bdec | cnop => exact ⟨_, _, rfl⟩
  | home | cls | escape | cr | lf | glyph | rowcol | cfg | eol | discard | row | col => cases h

/-- No class but those of AWAIT_CFG writes CONTRAST or BRIGHTNESS. -/
theorem State.feedStep_config_of_ne (s : State) {k : FeedClass} (c : Byte) (h : k.ist ≠ .awaitCfg) :
    (s.feedStep k c).contrast = s.contrast ∧ (s.feedStep k c).brightness = s.brightness := by
  cases k with
  | cinc | cdec | binc | bdec | cnop => exact absurd rfl h
  | glyph =>
    refine State.conclude_of (P := fun u => u.contrast = s.contrast ∧ u.brightness = s.brightness) (fun t ht => ?_)
      fun f => ⟨rfl, rfl⟩
    rw [(State.displayGlyph_ok ht).2, State.withGlyphDisplayed_eq]
    exact ⟨rfl, rfl⟩
  | cls =>
    obtain ⟨t, hclear, hframe, -⟩ := s.fullClear_spec
    rw [State.feedStep, State.feedCls_of_fullClear hclear, hframe]
    exact ⟨rfl, rfl⟩
  | eol =>
    obtain ⟨t, hclear, hframe, -⟩ := s.clearToEndOfLine_spec
    rw [State.feedStep, State.feedEol_of_clearToEndOfLine hclear, hframe]
    exact ⟨rfl, rfl⟩
  | col =>
    rw [State.feedStep, State.feedCol]
    split <;> exact ⟨rfl, rfl⟩
  | home | escape | cr | lf | rowcol | cfg | discard | row => exact ⟨rfl, rfl⟩

/-- Every command word but a FEED in AWAIT_CFG keeps CONTRAST and BRIGHTNESS. -/
theorem HostOp.exec_config {i : Instr} (h : HostOp i) {s t : State} (hcfg : ¬ (s.ist = .awaitCfg ∧ ∃ c, i = .feed c))
    (ht : exec i s = .next t) : t.contrast = s.contrast ∧ t.brightness = s.brightness := by
  by_cases hfeed : ∃ c, i = .feed c
  · obtain ⟨c, rfl⟩ := hfeed
    rw [feed_answer_eq ht]
    refine s.feedStep_config_of_ne c fun hk => hcfg ⟨?_, c, rfl⟩
    rwa [feedClass_ist] at hk
  by_cases hinit : i = .init
  · subst hinit
    obtain ⟨u, hclear, hframe, -⟩ := ({ s with ist := .idle } : State).fullClear_spec
    rw [← Host.Outcome.next.inj ((exec_init_eq s).symm.trans ht), State.conclude_of_ok hclear, hframe]
    exact ⟨rfl, rfl⟩
  · obtain ⟨u, hu, hframe⟩ := h.exec_frame (fun c hc => hfeed ⟨c, hc⟩) hinit s
    rw [Host.Outcome.next.inj (ht.symm.trans hu), hframe]
    exact ⟨rfl, rfl⟩

/-- Settles O47: a step that is no FEED in AWAIT_CFG keeps both registers. -/
theorem onlyConfigBytesChangeTheConfiguration : Obligations.OnlyConfigBytesChangeTheConfiguration := by
  intro s t hstep hchange
  obtain rfl | ⟨w, rest, hpending, ht⟩ := step_cases hstep
  · simp at hchange
  by_contra hno
  have hcfg : ¬ (s.ist = .awaitCfg ∧ ∃ c, decodeWord w = .feed c) := fun ⟨hist, c, hw⟩ =>
    hno ⟨hist, w, rest, c, hpending, hw⟩
  obtain ⟨hcontrast, hbrightness⟩ := (hostOp_decodeWord w).exec_config (s := { s with pending := rest }) hcfg ht
  exact hchange.elim (absurd hcontrast) (absurd hbrightness)

/-! ### FAULT (10_state.md R30, 60_exceptions.md R176) -/

/-- `FAULT` after an operation that raised at most one status. -/
def FaultRaised (s t : State) : Prop := ∃ f, t.fault = s.fault ||| faultBits f

theorem faultRaised_of_eq {s t : State} (h : t.fault = s.fault) : FaultRaised s t :=
  ⟨.ok, by rw [h]; exact BitVec.or_zero.symm⟩

theorem faultRaised_raise (s : State) (f : Status) : FaultRaised s (s.raise f) := ⟨f, rfl⟩

/-- An operation whose procedure keeps `FAULT` raises at most the status of the procedure. -/
theorem faultRaised_conclude {s : State} {p : Except Status State} (h : ∀ t, p = .ok t → t.fault = s.fault) :
    FaultRaised s (s.conclude p) :=
  State.conclude_of (P := FaultRaised s) (fun t ht => faultRaised_of_eq (h t ht)) (faultRaised_raise s)

theorem State.feedStep_faultRaised (s : State) (k : FeedClass) (c : Byte) : FaultRaised s (s.feedStep k c) := by
  by_cases hglyph : k = .glyph
  · subst hglyph
    exact faultRaised_conclude fun t ht => by rw [(State.displayGlyph_ok ht).2, State.withGlyphDisplayed_eq]
  by_cases hcol : k = .col
  · subst hcol
    rw [State.feedStep, State.feedCol]
    split
    case isTrue => exact ⟨.colClamped, rfl⟩
    case isFalse => exact faultRaised_of_eq rfl
  · exact faultRaised_of_eq (s.feedStep_completes c hglyph hcol).2

theorem HostOp.exec_faultRaised {i : Instr} (h : HostOp i) (s : State) : ∃ t, exec i s = .next t ∧ FaultRaised s t := by
  cases h with
  | feed c => exact ⟨_, exec_feed_eq c s, s.feedStep_faultRaised _ c⟩
  | init =>
    obtain ⟨t, hclear, hframe, -⟩ := ({ s with ist := .idle } : State).fullClear_spec
    exact ⟨_, exec_init_eq s, by rw [State.conclude_of_ok hclear, hframe]; exact faultRaised_of_eq rfl⟩
  | setPixel x y on => exact ⟨_, exec_setPixel_eq x y on s, faultRaised_of_eq (s.setPixel_fault _ _ on)⟩
  | renderGlyph c row column =>
    exact ⟨_, exec_renderGlyph_eq c row column s,
      faultRaised_conclude fun t ht => by rw [State.renderGlyph_frame ht]⟩
  | redraw => exact ⟨_, exec_redraw_eq s, faultRaised_conclude fun t ht => by rw [State.redraw_frame ht]⟩
  | inspect sel =>
    obtain ⟨d, hd⟩ | hraise := exec_inspect_cases sel s
    · exact ⟨_, hd, faultRaised_of_eq rfl⟩
    · exact ⟨_, hraise, faultRaised_raise s _⟩
  | reserved op => exact ⟨_, exec_reserved_eq op s, faultRaised_raise s _⟩
  | getPixel x y => exact ⟨_, exec_getPixel_eq x y s, faultRaised_of_eq rfl⟩
  | readByte addr => exact ⟨_, exec_readByte_eq addr s, faultRaised_of_eq rfl⟩

theorem step_faultRaised {s t : State} (h : step s = .next t) : FaultRaised s t := by
  obtain rfl | ⟨w, rest, -, ht⟩ := step_cases h
  · exact faultRaised_of_eq rfl
  · obtain ⟨u, hu, hfault⟩ := (hostOp_decodeWord w).exec_faultRaised { s with pending := rest }
    rwa [Host.Outcome.next.inj (ht.symm.trans hu)]

/-- Settles O45: a step only adds the bits of a status. -/
theorem faultBitsAreSticky : Obligations.FaultBitsAreSticky := by
  intro s t hstep
  obtain ⟨f, hf⟩ := step_faultRaised hstep
  rw [hf]
  exact BitVec.eq_of_getLsbD_eq fun k _ => by cases hk : s.fault.getLsbD k <;> simp [hk]

end Sys2Proof.Machine
end

section
/-! The invariant of the block, kept by every step (10_state.md sections 1 and 2). -/

namespace Sys2Proof.Machine

/-! ### The part of the invariant that is about the memories -/

/-- Canonical memories and in-font `SHADOW` codes. -/
def State.MemoryInv (s : State) : Prop := s.memoryWf ∧ s.shadowInFont

theorem State.inv_iff (s : State) : s.Inv ↔ s.MemoryInv ∧ s.faultReserved :=
  and_assoc.symm

/-- It looks at the two memories and the configuration only. -/
theorem State.MemoryInv.congr {s t : State} (h : s.MemoryInv) (hc : t.cfg = s.cfg) (hp : t.pb = s.pb)
    (hs : t.shadow = s.shadow) : t.MemoryInv :=
  ⟨State.memoryWf_congr hc hp hs h.1, fun a ha => by
    rw [hc, State.memRead_congr hc (show t.space .shadow = s.space .shadow from hs)]; exact h.2 a ha⟩

/-- An operation meets it whose procedure does; one that raises writes no memory. -/
theorem State.MemoryInv.conclude {s : State} (h : s.MemoryInv) {p : Except Status State}
    (hok : ∀ t, p = .ok t → t.MemoryInv) : (s.conclude p).MemoryInv :=
  State.conclude_of (P := State.MemoryInv) (fun t ht => (hok t ht).congr rfl rfl rfl) fun _ => h.congr rfl rfl rfl

/-! ### The procedures keep it -/

theorem State.MemoryInv.setPixel {s : State} (h : s.MemoryInv) (x y : Nat) (on : Bool) : (s.setPixel x y on).MemoryInv :=
  ⟨State.setPixel_memoryWf h.1 x y on, fun a ha => by simpa using h.2 a ha⟩

theorem State.MemoryInv.drawGlyph {s : State} (h : s.MemoryInv) (c : Byte) (row column : Nat) :
    (s.drawGlyph c row column).MemoryInv :=
  ⟨State.drawGlyph_memoryWf h.1 c row column, fun a ha => by simpa using h.2 a ha⟩

theorem State.MemoryInv.renderGlyph {s t : State} (h : s.MemoryInv) {c : Byte} {row column : Nat}
    (ht : s.renderGlyph c row column = .ok t) : t.MemoryInv := by
  obtain ⟨-, hok⟩ | ⟨-, -, -, hok⟩ | ⟨-, -, -, herr⟩ := s.renderGlyph_cases c row column
  · rwa [← Except.ok.inj (hok.symm.trans ht)]
  · rw [← Except.ok.inj (hok.symm.trans ht)]
    exact h.drawGlyph c row column
  · cases herr.symm.trans ht

theorem State.MemoryInv.redraw {s t : State} (h : s.MemoryInv) (ht : s.redraw = .ok t) : t.MemoryInv := by
  obtain ⟨u, hu, hframe, -, -, hwf⟩ := s.redraw_spec h.2
  obtain rfl : u = t := Except.ok.inj (hu.symm.trans ht)
  refine ⟨hwf h.1, fun a ha => ?_⟩
  rw [hframe]
  exact h.2 a ha

theorem State.withGlyphDisplayed_memoryWf {s : State} (h : s.memoryWf) (c : Byte) : (s.withGlyphDisplayed c).memoryWf := by
  have hcell : cellAddr s.crow.toNat s.ccol.toNat < 32 := by
    have := row_lt s.crow
    have := column_lt s.ccol
    rw [cellAddr]; omega
  have hdrawn := State.drawGlyph_memoryWf (State.memWrite_memoryWf (sp := .shadow) h hcell c) c s.crow.toNat s.ccol.toNat
  exact State.memoryWf_congr (by simp [State.withGlyphDisplayed]) (by simp [State.withGlyphDisplayed])
    (by simp [State.withGlyphDisplayed]) hdrawn

theorem State.MemoryInv.displayGlyph {s t : State} (h : s.MemoryInv) {c : Byte} (ht : s.displayGlyph c = .ok t) :
    t.MemoryInv := by
  obtain ⟨hfont, rfl⟩ := State.displayGlyph_ok ht
  refine ⟨State.withGlyphDisplayed_memoryWf h.1 c, fun a ha => ?_⟩
  rw [State.withGlyphDisplayed_memRead_shadow, show (s.withGlyphDisplayed c).cfg = s.cfg by rw [State.withGlyphDisplayed_eq]]
  split
  case isTrue => exact (inFont_iff s.cfg c).mpr hfont
  case isFalse => exact h.2 a ha

theorem State.MemoryInv.clearToEndOfLine {s t : State} (h : s.MemoryInv) (ht : s.clearToEndOfLine = .ok t) :
    t.MemoryInv := by
  obtain ⟨u, hu, hframe, hshadow, -, -, hwf⟩ := s.clearToEndOfLine_spec
  obtain rfl : u = t := Except.ok.inj (hu.symm.trans ht)
  refine ⟨hwf h.1, fun a ha => ?_⟩
  rw [hshadow, show u.cfg = s.cfg by rw [hframe]]
  split
  case isTrue => exact inFont_space s.cfg
  case isFalse => exact h.2 a ha

theorem State.fullClear_memoryInv {s t : State} (h : s.memoryWf) (ht : s.fullClear = .ok t) : t.MemoryInv := by
  obtain ⟨u, hu, hframe, hshadow, -, hwf⟩ := s.fullClear_spec
  obtain rfl : u = t := Except.ok.inj (hu.symm.trans ht)
  refine ⟨hwf h, fun a ha => ?_⟩
  rw [hshadow, if_pos ha]
  exact inFont_space _

/-! ### The instructions keep it -/

/-- The classes without a text procedure write neither memory. -/
theorem State.feedStep_memories (s : State) {k : FeedClass} (c : Byte) (hglyph : k ≠ .glyph) (hcls : k ≠ .cls)
    (heol : k ≠ .eol) : (s.feedStep k c).pb = s.pb ∧ (s.feedStep k c).shadow = s.shadow := by
  by_cases hconfig : k.ist = .awaitCfg
  · obtain ⟨v, w, hpush⟩ := s.feedStep_of_awaitCfg c hconfig
    rw [hpush]
    exact ⟨rfl, rfl⟩
  cases k with
  | glyph => exact absurd rfl hglyph
  | cls => exact absurd rfl hcls
  | eol => exact absurd rfl heol
  | col =>
    rw [State.feedStep, State.feedCol]
    split <;> exact ⟨rfl, rfl⟩
  | cinc | cdec | binc | bdec | cnop => exact absurd rfl hconfig
  | home | escape | cr | lf | rowcol | cfg | discard | row => exact ⟨rfl, rfl⟩

theorem State.MemoryInv.feedStep {s : State} (h : s.MemoryInv) (k : FeedClass) (c : Byte) :
    (s.feedStep k c).MemoryInv := by
  by_cases hglyph : k = .glyph
  · subst hglyph
    exact h.conclude fun _ => h.displayGlyph
  by_cases hcls : k = .cls
  · subst hcls
    rw [State.feedStep, State.feedCls]
    exact h.conclude fun _ => State.fullClear_memoryInv h.1
  by_cases heol : k = .eol
  · subst heol
    obtain ⟨t, hclear, -⟩ := s.clearToEndOfLine_spec
    rw [State.feedStep, State.feedEol_of_clearToEndOfLine hclear]
    exact (h.clearToEndOfLine hclear).congr rfl rfl rfl
  · obtain ⟨hpb, hshadow⟩ := s.feedStep_memories c hglyph hcls heol
    exact h.congr (s.feedStep_cfg k c) hpb hshadow

theorem HostOp.exec_memoryInv {i : Instr} (hi : HostOp i) {s : State} (h : s.MemoryInv) :
    ∃ t, exec i s = .next t ∧ t.MemoryInv := by
  cases hi with
  | feed c => exact ⟨_, exec_feed_eq c s, h.feedStep _ c⟩
  | init => exact ⟨_, exec_init_eq s, h.conclude fun _ => State.fullClear_memoryInv (s := { s with ist := .idle }) h.1⟩
  | setPixel x y on => exact ⟨_, exec_setPixel_eq x y on s, (h.setPixel _ _ on).congr rfl rfl rfl⟩
  | renderGlyph c row column => exact ⟨_, exec_renderGlyph_eq c row column s, h.conclude fun _ => h.renderGlyph⟩
  | redraw => exact ⟨_, exec_redraw_eq s, h.conclude fun _ => h.redraw⟩
  | inspect sel =>
    obtain ⟨t, ht, hframe⟩ := exec_inspect_frame sel s
    exact ⟨t, ht, h.congr (by rw [hframe]) (by rw [hframe]) (by rw [hframe])⟩
  | getPixel | readByte | reserved => exact ⟨_, rfl, h.congr rfl rfl rfl⟩

theorem step_memoryInv {s t : State} (h : s.MemoryInv) (hstep : step s = .next t) : t.MemoryInv := by
  obtain rfl | ⟨w, rest, -, ht⟩ := step_cases hstep
  · exact h
  · obtain ⟨u, hu, hinv⟩ := (hostOp_decodeWord w).exec_memoryInv (s := { s with pending := rest }) (h.congr rfl rfl rfl)
    rwa [Host.Outcome.next.inj (ht.symm.trans hu)]

/-! ### The reserved bits of FAULT (10_state.md R30) -/

/-- No status has a reserved bit. -/
theorem faultBits_and_reserved (f : Status) : faultBits f &&& 0xF8#8 = 0#8 := by
  cases f <;> rfl

theorem FaultRaised.faultReserved {s t : State} (h : FaultRaised s t) (hs : s.faultReserved) : t.faultReserved := by
  obtain ⟨f, hf⟩ := h
  have hzero : s.fault &&& 0xF8#8 = 0#8 := hs
  have hdistrib : (s.fault ||| faultBits f) &&& 0xF8#8 = (s.fault &&& 0xF8#8) ||| (faultBits f &&& 0xF8#8) :=
    BitVec.eq_of_getLsbD_eq fun k _ => by simp [Bool.and_or_distrib_right]
  rw [State.faultReserved, hf, hdistrib, hzero, faultBits_and_reserved, BitVec.or_zero]

/-- Settles O50: the memories by what each procedure writes, the reserved bits by the statuses a step can raise. -/
theorem everyStepKeepsTheInvariant : Obligations.EveryStepKeepsTheInvariant := by
  intro s t hinv hstep
  obtain ⟨hmem, hfault⟩ := s.inv_iff.mp hinv
  exact t.inv_iff.mpr ⟨step_memoryInv hmem hstep, (step_faultRaised hstep).faultReserved hfault⟩

/-- Settles O43: empty memories are canonical, an unlisted `SHADOW` cell reads a space, and `FAULT` is 0. -/
theorem resetMeetsTheInvariant : Obligations.ResetMeetsTheInvariant := by
  refine ⟨⟨rfl, rfl⟩, fun a _ => ?_, rfl⟩
  rw [State.reset_memRead]
  exact inFont_space _

end Sys2Proof.Machine
end

section
/-! Redraw fidelity: the text operations keep `PB` the rendering of `SHADOW` (45_redraw_init.md R162). -/

namespace Sys2Proof.Machine

/-- The rendering looks at the two memories and the configuration only. -/
theorem State.Rendered.congr {s t : State} (h : s.Rendered) (hc : t.cfg = s.cfg) (hp : t.pb = s.pb)
    (hs : t.shadow = s.shadow) : t.Rendered := fun x y hx hy => by
  rw [State.pixel_congr hc hp, h x y hx hy, hc, State.memRead_congr hc (show t.space .shadow = s.space .shadow from hs)]

/-- An operation leaves the rendering whose procedure does; one that raises writes no memory. -/
theorem State.Rendered.conclude {s : State} (h : s.Rendered) {p : Except Status State} (hok : ∀ t, p = .ok t → t.Rendered) :
    (s.conclude p).Rendered :=
  State.conclude_of (P := State.Rendered) (fun t ht => (hok t ht).congr rfl rfl rfl) fun _ => h.congr rfl rfl rfl

/-- A pixel lies in the cell whose address it computes (20_memory.md R60). -/
theorem cellAddr_of_pixel_eq_iff {row column x y : Nat} (hcolumn : column < 16) (hx : x < 96) :
    y / 8 * 16 + x / 6 = row * 16 + column ↔ InCell row column x y := by
  unfold InCell
  omega

/-! ### What the text procedures leave rendered -/

/-- A displayed glyph is the rendering of its cell, and no other cell or pixel changes. -/
theorem State.Rendered.withGlyphDisplayed {s : State} (h : s.Rendered) (c : Byte) : (s.withGlyphDisplayed c).Rendered := by
  intro x y hx hy
  rw [State.withGlyphDisplayed_memRead_shadow, show (s.withGlyphDisplayed c).cfg = s.cfg by rw [State.withGlyphDisplayed_eq]]
  by_cases hcell : InCell s.crow.toNat s.ccol.toNat x y
  · have hrow : y - s.crow.toNat * 8 = y % 8 := by omega
    have hcolumn : x - s.ccol.toNat * 6 = x % 6 := by omega
    rw [State.withGlyphDisplayed_pixel_of_inCell s c hx hcell,
      if_pos ((cellAddr_of_pixel_eq_iff (column_lt _) hx).mpr hcell), hrow, hcolumn]
  · rw [State.withGlyphDisplayed_pixel_of_not_inCell s c hx hcell,
      if_neg (mt (cellAddr_of_pixel_eq_iff (column_lt _) hx).mp hcell), h x y hx hy]

/-- The pixel columns of a space are blank (00_scope.md R12). -/
theorem fontBit_space (cfg : Config) {r p : Nat} (hr : r < 8) (hp : p < 6) : fontBit cfg 0x20#8 r p = false :=
  State.glyphBit_space { State.reset with cfg := cfg } hr hp

/-- Clearing to the end of the line blanks the cells that become spaces, and no other. -/
theorem State.Rendered.clearToEndOfLine {s t : State} (h : s.Rendered) (ht : s.clearToEndOfLine = .ok t) : t.Rendered := by
  obtain ⟨u, hu, hframe, hshadow, hpixel, -⟩ := s.clearToEndOfLine_spec
  obtain rfl : u = t := Except.ok.inj (hu.symm.trans ht)
  intro x y hx hy
  have hcolumn := column_lt s.ccol
  rw [hpixel x y hx, hshadow, show u.cfg = s.cfg by rw [hframe]]
  by_cases hrest : s.ccol.toNat * 6 ≤ x ∧ s.crow.toNat * 8 ≤ y ∧ y < s.crow.toNat * 8 + 8
  · rw [if_pos hrest, if_pos (by omega), fontBit_space _ (by omega) (by omega)]
  · rw [if_neg hrest, if_neg (by omega), h x y hx hy]

/-- REDRAW renders `SHADOW`, whatever `PB` was (45_redraw_init.md R161). -/
theorem State.redraw_rendered {s t : State} (h : s.shadowInFont) (ht : s.redraw = .ok t) : t.Rendered := by
  obtain ⟨u, hu, hframe, hpixel, -⟩ := s.redraw_spec h
  obtain rfl : u = t := Except.ok.inj (hu.symm.trans ht)
  intro x y hx hy
  have hc : u.cfg = s.cfg := by rw [hframe]
  have hs : u.space .shadow = s.space .shadow := by rw [hframe]; rfl
  rw [hpixel x y hx hy, hc, State.memRead_congr hc hs, State.glyphBit_eq]
  rfl

/-- A cleared screen is the rendering of 32 spaces (45_redraw_init.md R164). -/
theorem State.fullClear_rendered {s t : State} (ht : s.fullClear = .ok t) : t.Rendered := by
  obtain ⟨u, hu, -, hshadow, hpb, -⟩ := s.fullClear_spec
  obtain rfl : u = t := Except.ok.inj (hu.symm.trans ht)
  intro x y hx hy
  rw [State.pixel, hpb, if_pos (by omega), hshadow, if_pos (by omega), fontBit_space _ (by omega) (by omega)]
  exact BitVec.getLsbD_zero

/-! ### The instructions -/

theorem exec_init_rendered (s : State) : ∃ t, exec .init s = .next t ∧ t.Rendered := by
  obtain ⟨t, hclear, -⟩ := ({ s with ist := .idle } : State).fullClear_spec
  exact ⟨_, exec_init_eq s, by
    rw [State.conclude_of_ok hclear]; exact (State.fullClear_rendered hclear).congr rfl rfl rfl⟩

theorem State.Rendered.feedStep {s : State} (h : s.Rendered) (k : FeedClass) (c : Byte) : (s.feedStep k c).Rendered := by
  by_cases hglyph : k = .glyph
  · subst hglyph
    exact h.conclude fun t ht => by rw [(State.displayGlyph_ok ht).2]; exact h.withGlyphDisplayed c
  by_cases hcls : k = .cls
  · subst hcls
    rw [State.feedStep, State.feedCls]
    exact h.conclude fun _ => State.fullClear_rendered
  by_cases heol : k = .eol
  · subst heol
    obtain ⟨t, hclear, -⟩ := s.clearToEndOfLine_spec
    rw [State.feedStep, State.feedEol_of_clearToEndOfLine hclear]
    exact (h.clearToEndOfLine hclear).congr rfl rfl rfl
  · obtain ⟨hpb, hshadow⟩ := s.feedStep_memories c hglyph hcls heol
    exact h.congr (s.feedStep_cfg k c) hpb hshadow

/-- Every operation of the command word but SET_PIXEL and RENDER_GLYPH keeps the rendering. -/
theorem HostOp.exec_rendered {i : Instr} (hi : HostOp i) {s : State} (hfont : s.shadowInFont) (h : s.Rendered)
    (hset : ∀ x y on, i ≠ .setPixel x y on) (hrender : ∀ c row column, i ≠ .renderGlyph c row column) :
    ∃ t, exec i s = .next t ∧ t.Rendered := by
  cases hi with
  | feed c => exact ⟨_, exec_feed_eq c s, h.feedStep _ c⟩
  | init => exact exec_init_rendered s
  | setPixel x y on => exact absurd rfl (hset x y on)
  | renderGlyph c row column => exact absurd rfl (hrender c row column)
  | redraw => exact ⟨_, exec_redraw_eq s, h.conclude fun _ => State.redraw_rendered hfont⟩
  | inspect sel =>
    obtain ⟨t, ht, hframe⟩ := exec_inspect_frame sel s
    exact ⟨t, ht, h.congr (by rw [hframe]) (by rw [hframe]) (by rw [hframe])⟩
  | getPixel | readByte | reserved => exact ⟨_, rfl, h.congr rfl rfl rfl⟩

/-- Settles O51: INIT leaves 32 blank spaces, and each text procedure draws in `PB` what it writes to `SHADOW`. -/
theorem textOperationsKeepTheRendering : Obligations.TextOperationsKeepTheRendering := by
  refine ⟨exec_init_rendered, fun s t w rest hfont hrendered hpending hset hrender hstep => ?_⟩
  obtain ⟨u, hu, hu'⟩ := (hostOp_decodeWord w).exec_rendered (s := { s with pending := rest }) hfont
    (hrendered.congr rfl rfl rfl) hset hrender
  rwa [Host.Outcome.next.inj (hstep.symm.trans ((step_of_pending hpending).trans hu))]

end Sys2Proof.Machine
end

section
/-! Noninterference: states that look alike step to states that look alike (70_reset_and_hazards.md section 2,
44_interpreter.md section 6). Each procedure is followed along its definition over two states at once. -/

namespace Sys2Proof.Machine

/-! ### What the view says -/

/-- The same parameters but for `PB_RESET`. -/
def SameParams (c c' : Config) : Prop :=
  c.codeHome = c'.codeHome ∧ c.codeCls = c'.codeCls ∧ c.fontLast = c'.fontLast ∧ c.font = c'.font

/-- The same bytes in both writable memories. -/
def SameBytes (s s' : State) : Prop :=
  (∀ a, a < 192 → s.memRead .pb a = s'.memRead .pb a) ∧ ∀ a, a < 32 → s.memRead .shadow a = s'.memRead .shadow a

/-- States that look alike differ at most in the configuration and in how the memories are listed. -/
theorem sameView_iff {s s' : State} :
    SameView s s' ↔
      s' = { s with cfg := s'.cfg, shadow := s'.shadow, pb := s'.pb } ∧ SameParams s.cfg s'.cfg ∧ SameBytes s s' := by
  constructor
  · rintro ⟨hHome, hCls, hLast, hFont, hist, hcrow, hccol, hcon, hbri, hfault, hev, hres, hpend, hpb, hshadow⟩
    refine ⟨?_, ⟨hHome, hCls, hLast, hFont⟩, hpb, hshadow⟩
    ext1
    case cfg | shadow | pb => rfl
    all_goals exact Eq.symm ‹_›
  · rintro ⟨hframe, ⟨hHome, hCls, hLast, hFont⟩, hpb, hshadow⟩
    refine ⟨hHome, hCls, hLast, hFont, ?_, ?_, ?_, ?_, ?_, ?_, ?_, ?_, ?_, hpb, hshadow⟩
    all_goals rw [hframe]

section
variable {s s' : State} (h : SameView s s')
include h

theorem SameView.params : SameParams s.cfg s'.cfg := (sameView_iff.mp h).2.1
theorem SameView.memRead_pb {a : Nat} (ha : a < 192) : s.memRead .pb a = s'.memRead .pb a :=
  (sameView_iff.mp h).2.2.1 a ha
theorem SameView.memRead_shadow {a : Nat} (ha : a < 32) : s.memRead .shadow a = s'.memRead .shadow a :=
  (sameView_iff.mp h).2.2.2 a ha
theorem SameView.eq_frame : s' = { s with cfg := s'.cfg, shadow := s'.shadow, pb := s'.pb } := (sameView_iff.mp h).1
theorem SameView.ist_eq : s.ist = s'.ist := by rw [h.eq_frame]
theorem SameView.crow_eq : s.crow = s'.crow := by rw [h.eq_frame]
theorem SameView.ccol_eq : s.ccol = s'.ccol := by rw [h.eq_frame]
theorem SameView.contrast_eq : s.contrast = s'.contrast := by rw [h.eq_frame]
theorem SameView.brightness_eq : s.brightness = s'.brightness := by rw [h.eq_frame]
theorem SameView.fault_eq : s.fault = s'.fault := by rw [h.eq_frame]
theorem SameView.pending_eq : s.pending = s'.pending := by rw [h.eq_frame]

/-- An update that neither reads nor writes the configuration and the memories keeps the view. -/
theorem SameView.map {f : State → State}
    (hf : ∀ (u : State) (cfg : Config) (shadow pb : Memory),
      f { u with cfg := cfg, shadow := shadow, pb := pb } = { f u with cfg := cfg, shadow := shadow, pb := pb }) :
    SameView (f s) (f s') := by
  have hkeep : ∀ u : State, f u = { f u with cfg := u.cfg, shadow := u.shadow, pb := u.pb } := fun u => hf u _ _ _
  have hcfg : ∀ u, (f u).cfg = u.cfg := fun u => by rw [hkeep]
  have hread : ∀ u sp a, (f u).memRead sp a = u.memRead sp a := fun u sp a =>
    State.memRead_congr (hcfg u) (by rw [hkeep]; cases sp <;> rfl) a
  obtain ⟨hframe, hparams, hpb, hshadow⟩ := sameView_iff.mp h
  refine sameView_iff.mpr ⟨?_, by rw [hcfg, hcfg]; exact hparams, ?_, ?_⟩
  · have hmap : f s' = { f s with cfg := s'.cfg, shadow := s'.shadow, pb := s'.pb } := by
      conv_lhs => rw [hframe]
      exact hf s _ _ _
    rw [hmap]
  · simpa only [hread] using hpb
  · simpa only [hread] using hshadow

end

/-! ### The updates of the registers -/

theorem SameView.complete {s s' : State} (h : SameView s s') (d : Byte) : SameView (s.complete d) (s'.complete d) :=
  h.map (f := fun u => u.complete d) fun _ _ _ _ => rfl
theorem SameView.raise {s s' : State} (h : SameView s s') (f : Status) : SameView (s.raise f) (s'.raise f) :=
  h.map (f := fun u => u.raise f) fun _ _ _ _ => rfl
theorem SameView.withIst {s s' : State} (h : SameView s s') (ist : Ist) :
    SameView { s with ist := ist } { s' with ist := ist } :=
  h.map (f := fun u => { u with ist := ist }) fun _ _ _ _ => rfl
theorem SameView.withPending {s s' : State} (h : SameView s s') (rest : List CmdWord) :
    SameView { s with pending := rest } { s' with pending := rest } :=
  h.map (f := fun u => { u with pending := rest }) fun _ _ _ _ => rfl
theorem SameView.home {s s' : State} (h : SameView s s') : SameView s.home s'.home :=
  h.map fun _ _ _ _ => rfl
theorem SameView.emit {s s' : State} (h : SameView s s') (e : Event) : SameView (s.emit e) (s'.emit e) :=
  h.map (f := fun u => u.emit e) fun _ _ _ _ => rfl
theorem SameView.restoreCursor {s s' : State} (h : SameView s s') (r : BitVec 1) (c : BitVec 4) :
    SameView (s.restoreCursor r c) (s'.restoreCursor r c) :=
  h.map (f := fun u => u.restoreCursor r c) fun _ _ _ _ => rfl
theorem SameView.advanceAfterGlyph {s s' : State} (h : SameView s s') :
    SameView s.advanceAfterGlyph s'.advanceAfterGlyph :=
  h.map fun u _ _ _ => by
    simp only [State.advanceAfterGlyph]
    split
    case isTrue => split <;> rfl
    case isFalse => rfl

/-! ### The writes -/

/-- Writing one byte into the same cell of both states keeps the view. -/
theorem SameView.memWrite {s s' : State} (h : SameView s s') (sp : Space) (a : Nat) (v : Byte) :
    SameView (s.memWrite sp a v) (s'.memWrite sp a v) := by
  obtain ⟨hframe, hparams, hpb, hshadow⟩ := sameView_iff.mp h
  have hread : ∀ sp' b, sp' ≠ .fontrom → s.memRead sp' b = s'.memRead sp' b →
      (s.memWrite sp a v).memRead sp' b = (s'.memWrite sp a v).memRead sp' b := by
    intro sp' b hsp' hold
    by_cases hcell : sp' = sp ∧ b = a
    · obtain ⟨rfl, rfl⟩ := hcell
      rw [State.memRead_memWrite_same s hsp', State.memRead_memWrite_same s' hsp']
    · have hother : sp' ≠ sp ∨ b ≠ a := by tauto
      rw [s.memRead_memWrite_other v hother, s'.memRead_memWrite_other v hother, hold]
  refine sameView_iff.mpr ⟨?_, by simpa using hparams, fun b hb => hread .pb b nofun (hpb b hb),
    fun b hb => hread .shadow b nofun (hshadow b hb)⟩
  rw [hframe]
  cases sp <;> rfl

theorem SameView.setPixel {s s' : State} (h : SameView s s') (x y : Nat) (on : Bool) :
    SameView (s.setPixel x y on) (s'.setPixel x y on) := by
  by_cases hclip : 96 ≤ x ∨ 16 ≤ y
  · rwa [State.setPixel_of_clipped s on hclip, State.setPixel_of_clipped s' on hclip]
  · rw [State.setPixel_eq_memWrite s on (by omega) (by omega), State.setPixel_eq_memWrite s' on (by omega) (by omega),
      h.memRead_pb (by omega)]
    exact h.memWrite _ _ _

/-- A fold of steps that keep the view keeps it. -/
theorem SameView.foldl {α : Type} {g : State → α → State} (hg : ∀ u u' x, SameView u u' → SameView (g u x) (g u' x))
    (l : List α) {s s' : State} (h : SameView s s') : SameView (l.foldl g s) (l.foldl g s') := by
  induction l generalizing s s' with
  | nil => exact h
  | cons x l ih => exact ih (hg s s' x h)

theorem SameView.glyphRow_eq {s s' : State} (h : SameView s s') (c : Byte) (r : Nat) : s.glyphRow c r = s'.glyphRow c r := by
  obtain ⟨-, -, -, hFont⟩ := h.params
  rw [State.glyphRow_eq, State.glyphRow_eq, fontByte, fontByte, hFont]

theorem SameView.inFont_eq {s s' : State} (h : SameView s s') (c : Byte) : inFont s.cfg c = inFont s'.cfg c := by
  obtain ⟨-, -, hLast, -⟩ := h.params
  rw [inFont, inFont, hLast]

theorem SameView.drawGlyphRow {s s' : State} (h : SameView s s') (b : Byte) (r row column : Nat) :
    SameView (s.drawGlyphRow b r row column) (s'.drawGlyphRow b r row column) := by
  unfold State.drawGlyphRow
  refine SameView.foldl (fun _ _ _ hu => ?_) _ h
  exact hu.setPixel _ _ _

theorem SameView.drawGlyph {s s' : State} (h : SameView s s') (c : Byte) (row column : Nat) :
    SameView (s.drawGlyph c row column) (s'.drawGlyph c row column) := by
  unfold State.drawGlyph
  refine SameView.foldl (fun _ _ _ hu => ?_) _ h
  rw [hu.glyphRow_eq]
  exact hu.drawGlyphRow _ _ _ _

theorem SameView.clearShadow {s s' : State} (h : SameView s s') : SameView s.clearShadow s'.clearShadow := by
  unfold State.clearShadow
  refine SameView.foldl (fun _ _ _ hu => ?_) _ h
  exact hu.memWrite _ _ _

/-! ### The procedures that may raise -/

/-- Two procedure outcomes that look alike: states that do, or the same status raised. -/
def SameOutcome (p p' : Except Status State) : Prop :=
  (∃ t t', p = .ok t ∧ p' = .ok t' ∧ SameView t t') ∨ ∃ f, p = .error f ∧ p' = .error f

theorem sameOutcome_ok {t t' : State} (h : SameView t t') : SameOutcome (.ok t) (.ok t') := .inl ⟨t, t', rfl, rfl, h⟩
theorem sameOutcome_error (f : Status) : SameOutcome (.error f) (.error f) := .inr ⟨f, rfl, rfl⟩

theorem SameView.conclude {s s' : State} (h : SameView s s') {p p' : Except Status State} (hp : SameOutcome p p') :
    SameView (s.conclude p) (s'.conclude p') := by
  obtain ⟨t, t', ht, ht', hview⟩ | ⟨f, hf, hf'⟩ := hp
  · rw [State.conclude_of_ok ht, State.conclude_of_ok ht']
    exact hview.complete 0#8
  · rw [State.conclude_of_error hf, State.conclude_of_error hf']
    exact h.raise f

theorem SameView.renderGlyph {s s' : State} (h : SameView s s') (c : Byte) (row column : Nat) :
    SameOutcome (s.renderGlyph c row column) (s'.renderGlyph c row column) := by
  unfold State.renderGlyph
  rw [← h.inFont_eq]
  split
  case isTrue => exact sameOutcome_ok h
  case isFalse =>
    split
    case isTrue => exact sameOutcome_ok (h.drawGlyph c row column)
    case isFalse => exact sameOutcome_error _

theorem SameView.displayGlyph {s s' : State} (h : SameView s s') (c : Byte) :
    SameOutcome (s.displayGlyph c) (s'.displayGlyph c) := by
  cases hfont : inFont s.cfg c with
  | false =>
    rw [s.displayGlyph_of_not_inFont hfont, s'.displayGlyph_of_not_inFont (h.inFont_eq c ▸ hfont)]
    exact sameOutcome_error _
  | true =>
    rw [s.displayGlyph_of_inFont hfont, s'.displayGlyph_of_inFont (h.inFont_eq c ▸ hfont), ← h.crow_eq, ← h.ccol_eq]
    exact sameOutcome_ok ((h.memWrite _ _ _).drawGlyph _ _ _).advanceAfterGlyph

theorem SameView.displaySpaces {s s' : State} (h : SameView s s') (n : Nat) :
    SameOutcome (s.displaySpaces n) (s'.displaySpaces n) := by
  induction n generalizing s s' with
  | zero => exact sameOutcome_ok h
  | succ n ih =>
    unfold State.displaySpaces
    obtain ⟨t, t', ht, ht', hview⟩ | ⟨f, hf, hf'⟩ := h.displayGlyph 0x20#8
    · rw [ht, ht']
      exact ih hview
    · rw [hf, hf']
      exact sameOutcome_error f

theorem SameView.clearToEndOfLine {s s' : State} (h : SameView s s') :
    SameOutcome s.clearToEndOfLine s'.clearToEndOfLine := by
  unfold State.clearToEndOfLine
  rw [← h.crow_eq, ← h.ccol_eq]
  obtain ⟨t, t', ht, ht', hview⟩ | ⟨f, hf, hf'⟩ := h.displaySpaces (16 - s.ccol.toNat)
  · rw [ht, ht']
    exact sameOutcome_ok (hview.restoreCursor _ _)
  · rw [hf, hf']
    exact sameOutcome_error f

/-- Rendering cells of the grid reads `SHADOW` inside its 32 bytes. -/
theorem SameView.renderCells {s s' : State} (h : SameView s s') (cells : List (Nat × Nat))
    (hgrid : ∀ q ∈ cells, q.1 < 2 ∧ q.2 < 16) : SameOutcome (s.renderCells cells) (s'.renderCells cells) := by
  induction cells generalizing s s' with
  | nil => exact sameOutcome_ok h
  | cons q cells ih =>
    obtain ⟨row, column⟩ := q
    obtain ⟨hrow, hcolumn⟩ := hgrid (row, column) (List.mem_cons_self ..)
    have hcell : cellAddr row column < 32 := by rw [cellAddr]; omega
    unfold State.renderCells
    rw [← h.memRead_shadow hcell]
    obtain ⟨t, t', ht, ht', hview⟩ | ⟨f, hf, hf'⟩ := h.renderGlyph (s.memRead .shadow (cellAddr row column)) row column
    · rw [ht, ht']
      exact ih hview fun q hq => hgrid q (List.mem_cons_of_mem _ hq)
    · rw [hf, hf']
      exact sameOutcome_error f

theorem SameView.redraw {s s' : State} (h : SameView s s') : SameOutcome s.redraw s'.redraw := by
  unfold State.redraw
  rw [← h.crow_eq, ← h.ccol_eq]
  obtain ⟨t, t', ht, ht', hview⟩ | ⟨f, hf, hf'⟩ := h.home.renderCells allCells fun q hq => mem_allCells.mp hq
  · rw [ht, ht']
    exact sameOutcome_ok (hview.restoreCursor _ _)
  · rw [hf, hf']
    exact sameOutcome_error f

theorem SameView.fullClear {s s' : State} (h : SameView s s') : SameOutcome s.fullClear s'.fullClear := by
  unfold State.fullClear
  rw [← h.contrast_eq, ← h.brightness_eq]
  have hcleared := (h.emit (.deviceInit s.contrast s.brightness)).clearShadow
  obtain ⟨t, t', ht, ht', hview⟩ | ⟨f, hf, hf'⟩ := hcleared.redraw
  · rw [ht, ht']
    exact sameOutcome_ok hview.home
  · rw [hf, hf']
    exact sameOutcome_error f

/-! ### What the operations read -/

theorem SameView.getPixel_eq {s s' : State} (h : SameView s s') (x y : Nat) : s.getPixel x y = s'.getPixel x y := by
  by_cases hclip : 96 ≤ x ∨ 16 ≤ y
  · rw [s.getPixel_of_clipped hclip, s'.getPixel_of_clipped hclip]
  · rw [s.getPixel_eq_pixel (by omega) (by omega), s'.getPixel_eq_pixel (by omega) (by omega), State.pixel, State.pixel,
      h.memRead_pb (by omega)]

theorem SameView.readByte_eq {s s' : State} (h : SameView s s') (addr : Nat) : s.readByte addr = s'.readByte addr := by
  unfold State.readByte
  split
  case isTrue => rfl
  case isFalse => exact h.memRead_pb (by omega)

theorem SameView.feedClass_eq {s s' : State} (h : SameView s s') (c : Byte) :
    feedClass s.cfg s.ist c = feedClass s'.cfg s'.ist c := by
  obtain ⟨hHome, hCls, -, -⟩ := h.params
  unfold feedClass
  rw [hHome, hCls, h.ist_eq]

/-- A `SHADOW` cell INSPECT selects is one of the 32 (45_redraw_init.md R170). -/
theorem lt_of_selected_shadow {sel : Byte} {a : Nat} (h : selected sel = .shadow a) : a < 32 := by
  by_cases hgt : 5 < sel.toNat
  · rw [selected_of_gt_five hgt] at h
    split at h
    case isTrue => cases h; omega
    case isFalse => cases h
  · unfold selected at h
    split at h
    case h_7 => simp only [imp_false] at *; omega
    all_goals cases h

/-! ### The instructions -/

/-- The answer of an instruction in two states that look alike. -/
def SameAnswer (i : Instr) (s s' : State) : Prop :=
  ∃ t t', exec i s = .next t ∧ exec i s' = .next t' ∧ SameView t t'

theorem SameView.inspect {s s' : State} (h : SameView s s') (sel : Byte) : SameAnswer (.inspect sel) s s' := by
  refine ⟨_, _, exec_inspect_eq sel s, exec_inspect_eq sel s', ?_⟩
  cases hsel : selected sel with
  | ist => rw [h.ist_eq]; exact h.complete _
  | crow => rw [h.crow_eq]; exact h.complete _
  | ccol => rw [h.ccol_eq]; exact h.complete _
  | contrast => rw [h.contrast_eq]; exact h.complete _
  | brightness => rw [h.brightness_eq]; exact h.complete _
  | fault => rw [h.fault_eq]; exact h.complete _
  | shadow a =>
    change SameView (s.complete (s.memRead .shadow a)) (s'.complete (s'.memRead .shadow a))
    rw [h.memRead_shadow (lt_of_selected_shadow hsel)]
    exact h.complete _
  | unlisted => exact h.raise _

theorem SameView.feedStep {s s' : State} (h : SameView s s') (k : FeedClass) (c : Byte) :
    SameView (s.feedStep k c) (s'.feedStep k c) := by
  cases k with
  | cls =>
    rw [State.feedStep, State.feedStep, State.feedCls, State.feedCls]
    exact h.conclude h.fullClear
  | glyph => exact h.conclude (h.displayGlyph c)
  | eol =>
    refine h.conclude ?_
    obtain ⟨t, t', ht, ht', hview⟩ | ⟨f, hf, hf'⟩ := h.clearToEndOfLine
    · rw [ht, ht']
      exact sameOutcome_ok (hview.withIst .idle)
    · rw [hf, hf']
      exact sameOutcome_error f
  | col =>
    have hcol : SameView { s with ccol := columnOfByte c, ist := .idle } { s' with ccol := columnOfByte c, ist := .idle } :=
      h.map (f := fun u => { u with ccol := columnOfByte c, ist := .idle }) fun _ _ _ _ => rfl
    rw [State.feedStep, State.feedStep, State.feedCol, State.feedCol]
    split
    case isTrue => exact hcol.raise _
    case isFalse => exact hcol.complete _
  | home | escape | cr | lf | rowcol | cfg | discard | row | cinc | cdec | binc | bdec | cnop =>
    exact h.map (f := fun u => u.feedStep _ c) fun _ _ _ _ => rfl

theorem HostOp.exec_sameAnswer {i : Instr} (hi : HostOp i) {s s' : State} (h : SameView s s') : SameAnswer i s s' := by
  cases hi with
  | feed c =>
    refine ⟨_, _, exec_feed_eq c s, exec_feed_eq c s', ?_⟩
    rw [← h.feedClass_eq]
    exact h.feedStep _ c
  | init => exact ⟨_, _, exec_init_eq s, exec_init_eq s', h.conclude (h.withIst .idle).fullClear⟩
  | setPixel x y on => exact ⟨_, _, exec_setPixel_eq x y on s, exec_setPixel_eq x y on s', (h.setPixel _ _ on).complete _⟩
  | getPixel x y =>
    refine ⟨_, _, exec_getPixel_eq x y s, exec_getPixel_eq x y s', ?_⟩
    rw [← h.getPixel_eq]
    exact h.complete _
  | renderGlyph c row column =>
    exact ⟨_, _, exec_renderGlyph_eq c row column s, exec_renderGlyph_eq c row column s', h.conclude (h.renderGlyph c _ _)⟩
  | redraw => exact ⟨_, _, exec_redraw_eq s, exec_redraw_eq s', h.conclude h.redraw⟩
  | readByte addr =>
    refine ⟨_, _, exec_readByte_eq addr s, exec_readByte_eq addr s', ?_⟩
    rw [← h.readByte_eq]
    exact h.complete _
  | inspect sel => exact h.inspect sel
  | reserved op => exact ⟨_, _, exec_reserved_eq op s, exec_reserved_eq op s', h.raise _⟩

/-- Settles O52: the two states take the same word, and its operation reads only what the view holds. -/
theorem statesThatLookAlikeStepAlike : Obligations.StatesThatLookAlikeStepAlike := by
  intro s s' t t' h hs hs'
  cases hpending : s.pending with
  | nil =>
    obtain rfl := Host.Outcome.next.inj ((step_of_no_pending hpending).symm.trans hs)
    obtain rfl := Host.Outcome.next.inj ((step_of_no_pending (h.pending_eq ▸ hpending)).symm.trans hs')
    exact h
  | cons w rest =>
    obtain ⟨u, u', hu, hu', hview⟩ := (hostOp_decodeWord w).exec_sameAnswer (h.withPending rest)
    obtain rfl := Host.Outcome.next.inj (((step_of_pending hpending).trans hu).symm.trans hs)
    obtain rfl := Host.Outcome.next.inj (((step_of_pending (h.pending_eq ▸ hpending)).trans hu').symm.trans hs')
    exact hview

/-! ### INIT forgets the screen (45_redraw_init.md R165) -/

/-- Settles O53: the registers INIT keeps are equal, the others and both memories it sets. -/
theorem initForgetsTheScreen : Obligations.InitForgetsTheScreen := by
  intro s s' hHome hCls hLast hFont hcon hbri hfault hev hpending
  obtain ⟨t, hclear, hframe, hshadow, hpb, -⟩ := ({ s with ist := .idle } : State).fullClear_spec
  obtain ⟨t', hclear', hframe', hshadow', hpb', -⟩ := ({ s' with ist := .idle } : State).fullClear_spec
  have hview : SameView { t with result := none } { t' with result := none } := by
    refine sameView_iff.mpr ⟨?_, ?_, fun a ha => ?_, fun a ha => ?_⟩
    · rw [hframe, hframe']; simp only [hcon, hbri, hfault, hev, hpending]
    · rw [hframe, hframe']; exact ⟨hHome, hCls, hLast, hFont⟩
    · exact (hpb a).trans ((if_pos ha).trans ((if_pos ha).symm.trans (hpb' a).symm))
    · exact (hshadow a).trans ((if_pos ha).trans ((if_pos ha).symm.trans (hshadow' a).symm))
  refine ⟨_, _, exec_init_eq s, exec_init_eq s', ?_⟩
  rw [State.conclude_of_ok hclear, State.conclude_of_ok hclear']
  exact hview.complete 0#8

end Sys2Proof.Machine
end

section
/-! The laws of `setPixel` and `renderGlyph` (41_pixel_buffer.md R97, R99; 42_rasterizer.md R107 to R109). -/

namespace Sys2Proof.Machine

/-- Completing twice with DATA 0 is completing once. -/
theorem State.complete_complete (s : State) (d : Byte) : (s.complete d).complete d = s.complete d := rfl

/-! ### `setPixel` (41_pixel_buffer.md R97, R99) -/

/-- `setPixel` does not read the result. -/
theorem State.complete_setPixel (s : State) (d : Byte) (x y : Nat) (on : Bool) :
    (s.complete d).setPixel x y on = (s.setPixel x y on).complete d := by
  unfold State.setPixel
  split <;> rfl

/-- Last write wins (41_pixel_buffer.md R97). -/
theorem State.setPixel_setPixel_same {s : State} (h : s.memoryWf) (x y : Nat) (on on' : Bool) :
    (s.setPixel x y on).setPixel x y on' = s.setPixel x y on' := by
  have hwf := State.setPixel_memoryWf (State.setPixel_memoryWf h x y on) x y on'
  refine State.eq_of_pixels (State.setPixel_memoryWf h x y on') hwf ?_ fun x' y' hx' _ => ?_
  · ext1 <;> simp
  · simp only [State.pixel_setPixel _ _ _ _ _ hx']
    split <;> rfl

/-- Writes to different pixels commute (41_pixel_buffer.md R97). -/
theorem State.setPixel_comm {s : State} (h : s.memoryWf) {x y x' y' : Nat} (on on' : Bool) (hne : x ≠ x' ∨ y ≠ y') :
    (s.setPixel x' y' on').setPixel x y on = (s.setPixel x y on).setPixel x' y' on' := by
  have hwf := State.setPixel_memoryWf (State.setPixel_memoryWf h x y on) x' y' on'
  have hwf' := State.setPixel_memoryWf (State.setPixel_memoryWf h x' y' on') x y on
  refine State.eq_of_pixels hwf hwf' ?_ fun a b ha _ => ?_
  · ext1 <;> simp
  · simp only [State.pixel_setPixel _ _ _ _ _ ha]
    by_cases hin : a = x ∧ b = y ∧ y < 16
    · have hout : ¬ (a = x' ∧ b = y' ∧ y' < 16) := by omega
      rw [if_pos hin, if_neg hout, if_pos hin]
    · rw [if_neg hin, if_neg hin]

/-- Two SET_PIXELs in a row complete the two writes. -/
theorem exec_setPixel_complete (x y : Byte) (on : Bool) (s : State) :
    exec (.setPixel x y on) (s.complete 0#8) = .next ((s.setPixel x.toNat y.toNat on).complete 0#8) := by
  rw [exec_setPixel_eq, State.complete_setPixel, State.complete_complete]

/-- Settles O9: the two laws of `setPixel`, the result word of the first operation making no difference. -/
theorem setPixelLastWinsAndCommutes : Obligations.SetPixelLastWinsAndCommutes := by
  intro s hwf x y x' y' on on'
  refine ⟨_, _, _, exec_setPixel_eq x y on s, exec_setPixel_complete x' y' on' _, exec_setPixel_eq x' y' on' s, ?_,
    fun hne => ?_⟩
  · rintro rfl rfl
    rw [State.setPixel_setPixel_same hwf]
  · have hne' : x.toNat ≠ x'.toNat ∨ y.toNat ≠ y'.toNat :=
      hne.imp (mt BitVec.eq_of_toNat_eq) (mt BitVec.eq_of_toNat_eq)
    rw [exec_setPixel_complete, State.setPixel_comm hwf on on' hne']

/-- The result of GET_PIXEL is the pixel. -/
theorem exec_getPixel_of_getPixel {s : State} {x y : Byte} {on : Bool} (h : s.getPixel x.toNat y.toNat = on) :
    exec (.getPixel x y) s = .next { s with result := some (if on then 0x0001#16 else 0x0000#16) } := by
  rw [exec_getPixel_eq, h, State.complete_eq]
  cases on <;> rfl

/-- Setting a pixel changes what `getPixel` reads of no other. -/
theorem State.getPixel_setPixel_other (s : State) {x y x' y' : Nat} (on : Bool) (h : x' ≠ x ∨ y' ≠ y) :
    (s.setPixel x y on).getPixel x' y' = s.getPixel x' y' := by
  by_cases hclip : 96 ≤ x' ∨ 16 ≤ y'
  · rw [State.getPixel_of_clipped _ hclip, State.getPixel_of_clipped _ hclip]
  · rw [State.getPixel_eq_pixel _ (by omega) (by omega), State.getPixel_eq_pixel _ (by omega) (by omega),
      State.pixel_setPixel _ _ _ _ _ (by omega), if_neg (by omega)]

/-- Settles O11: the pixel set by the law of `setPixel`, the others because `getPixel` reads one bit. -/
theorem getPixelAfterSetPixel : Obligations.GetPixelAfterSetPixel := by
  intro x y on s hx hy
  refine ⟨_, exec_setPixel_eq x y on s, exec_getPixel_of_getPixel ?_, fun x' y' hne =>
    ⟨_, _, exec_getPixel_of_getPixel rfl, exec_getPixel_of_getPixel ?_, rfl⟩⟩
  · rw [State.getPixel_eq_pixel _ hx hy, State.complete_pixel, State.pixel_setPixel _ _ _ _ _ hx,
      if_pos ⟨rfl, rfl, hy⟩]
  · have hne' : x'.toNat ≠ x.toNat ∨ y'.toNat ≠ y.toNat :=
      hne.imp (mt BitVec.eq_of_toNat_eq) (mt BitVec.eq_of_toNat_eq)
    exact State.getPixel_setPixel_other s on hne'

/-! ### `renderGlyph` (42_rasterizer.md R107) -/

/-- `drawGlyph` does not read the result. -/
theorem State.complete_drawGlyph (s : State) (d : Byte) (c : Byte) (row column : Nat) :
    (s.complete d).drawGlyph c row column = (s.drawGlyph c row column).complete d := by
  have hrow : ∀ (u : State) (b : Byte) (r : Nat),
      (u.complete d).drawGlyphRow b r row column = (u.drawGlyphRow b r row column).complete d := fun u b r =>
    List.foldl_hom (fun v : State => v.complete d) fun v p => v.complete_setPixel d _ _ _
  exact List.foldl_hom (fun v : State => v.complete d) fun v r => hrow v (v.glyphRow c r) r

/-- Drawing one glyph twice in one cell is drawing it once (42_rasterizer.md R107). -/
theorem State.drawGlyph_drawGlyph_same {s : State} (h : s.memoryWf) (c : Byte) {row column : Nat} (hrow : row < 2) :
    (s.drawGlyph c row column).drawGlyph c row column = s.drawGlyph c row column := by
  have hwf := State.drawGlyph_memoryWf h c row column
  refine State.eq_of_pixels hwf (State.drawGlyph_memoryWf hwf c row column) (State.drawGlyph_eq _ c row column)
    fun x y hx _ => ?_
  by_cases hcell : InCell row column x y
  · rw [State.pixel_drawGlyph_of_inCell _ c hrow hx hcell, State.pixel_drawGlyph_of_inCell s c hrow hx hcell,
      State.drawGlyph_cfg]
  · exact State.pixel_drawGlyph_of_not_inCell _ c hrow hx hcell

/-- Glyphs drawn in different cells commute (42_rasterizer.md R107). -/
theorem State.drawGlyph_comm {s : State} (h : s.memoryWf) (c c' : Byte) {row column row' column' : Nat} (hrow : row < 2)
    (hrow' : row' < 2) (hne : row ≠ row' ∨ column ≠ column') :
    (s.drawGlyph c' row' column').drawGlyph c row column = (s.drawGlyph c row column).drawGlyph c' row' column' := by
  have hwf := State.drawGlyph_memoryWf (State.drawGlyph_memoryWf h c row column) c' row' column'
  have hwf' := State.drawGlyph_memoryWf (State.drawGlyph_memoryWf h c' row' column') c row column
  refine State.eq_of_pixels hwf hwf' (by ext1 <;> simp) fun x y hx _ => ?_
  by_cases hcell : InCell row column x y
  · have hcell' : ¬ InCell row' column' x y := by omega
    rw [State.pixel_drawGlyph_of_inCell _ c hrow hx hcell, State.pixel_drawGlyph_of_not_inCell _ c' hrow' hx hcell',
      State.pixel_drawGlyph_of_inCell _ c hrow hx hcell, State.drawGlyph_cfg]
  · rw [State.pixel_drawGlyph_of_not_inCell _ c hrow hx hcell]
    by_cases hcell' : InCell row' column' x y
    · rw [State.pixel_drawGlyph_of_inCell _ c' hrow' hx hcell', State.pixel_drawGlyph_of_inCell _ c' hrow' hx hcell',
        State.drawGlyph_cfg]
    · rw [State.pixel_drawGlyph_of_not_inCell _ c' hrow' hx hcell', State.pixel_drawGlyph_of_not_inCell _ c' hrow' hx hcell',
        State.pixel_drawGlyph_of_not_inCell _ c hrow hx hcell]

/-- Two RENDER_GLYPHs in a row complete the two drawings. -/
theorem exec_renderGlyph_complete {c row column : Byte} {s : State} (hr : row.toNat < 2) (hc : column.toNat < 16)
    (hf : FontHas s.cfg c) :
    exec (.renderGlyph c row column) (s.complete 0#8) = .next ((s.drawGlyph c row.toNat column.toNat).complete 0#8) := by
  rw [exec_renderGlyph_of_fontHas (s := s.complete 0#8) hr hc hf, State.complete_drawGlyph, State.complete_complete]

/-- Settles O15: the two laws of `drawGlyph`, the result word of the first operation making no difference. -/
theorem renderGlyphIdempotentAndCommutes : Obligations.RenderGlyphIdempotentAndCommutes := by
  intro s hwf c row column c' row' column' hr hc hf hr' hc' hf'
  refine ⟨_, _, _, exec_renderGlyph_of_fontHas hr hc hf, ?_, exec_renderGlyph_complete hr' hc' (by simpa using hf'),
    exec_renderGlyph_of_fontHas hr' hc' hf', fun hne => ?_⟩
  · rw [exec_renderGlyph_complete hr hc (by simpa using hf), State.drawGlyph_drawGlyph_same hwf c hr]
  · have hne' : row.toNat ≠ row'.toNat ∨ column.toNat ≠ column'.toNat :=
      hne.imp (mt BitVec.eq_of_toNat_eq) (mt BitVec.eq_of_toNat_eq)
    rw [exec_renderGlyph_complete hr hc (by simpa using hf), State.drawGlyph_comm hwf c c' hr hr' hne']

/-- Settles O16: the space is in every font, and its 6 pixel columns are blank. -/
theorem spaceRendersBlank : Obligations.SpaceRendersBlank := by
  intro row column s hr hc
  refine ⟨_, exec_renderGlyph_of_fontHas hr hc ((inFont_iff _ _).mp (inFont_space _)), fun x y hcell => ?_⟩
  rw [State.complete_pixel, State.pixel_drawGlyph_of_inCell s _ hr (by omega) hcell]
  exact fontBit_space _ (by omega) (by omega)

/-! ### The byte-level form (42_rasterizer.md R108) -/

/-- A bit of a `PB` byte of a pixel row of a drawn cell: the glyph's column where the bit is a pixel of the cell, the old
bit elsewhere. The byte is the `i`-th of the three that hold four cells, the cell the `m`-th of the four. -/
theorem State.drawGlyph_memRead_pb_getLsbD (s : State) (c : Byte) {row column r i k : Nat} (hrow : row < 2)
    (hcolumn : column < 16) (hr : r < 8) (hi : i < 3) (hk : k < 8) :
    ((s.drawGlyph c row column).memRead .pb (12 * (row * 8 + r) + 3 * (column / 4) + i)).getLsbD k =
      if column % 4 * 6 ≤ 8 * i + (7 - k) ∧ 8 * i + (7 - k) < column % 4 * 6 + 6 then
        (fontByte s.cfg c r).getLsbD (k + column % 4 * 6 - 8 * i)
      else (s.memRead .pb (12 * (row * 8 + r) + 3 * (column / 4) + i)).getLsbD k := by
  have hy : (12 * (row * 8 + r) + 3 * (column / 4) + i) / 12 = row * 8 + r := by omega
  have hx : (12 * (row * 8 + r) + 3 * (column / 4) + i) % 12 = 3 * (column / 4) + i := by omega
  rw [State.memRead_pb_getLsbD _ _ hk, State.memRead_pb_getLsbD s _ hk, hx, hy]
  split
  case isTrue hin =>
    have hbit : 7 - (8 * (3 * (column / 4) + i) + (7 - k) - column * 6) = k + column % 4 * 6 - 8 * i := by omega
    rw [State.pixel_drawGlyph_of_inCell s c hrow (by omega) (by unfold InCell; omega), fontBit, hbit, Nat.add_sub_cancel_left]
  case isFalse hout =>
    exact State.pixel_drawGlyph_of_not_inCell s c hrow (by omega) (by unfold InCell; omega)

/-- Settles O14: each formula bit by bit, the glyph's columns where the mask of the formula is 1 and the old bits
elsewhere. -/
theorem renderGlyphByteByByte : Obligations.RenderGlyphByteByByte := by
  intro c row column s hrow hcolumn hfont
  refine ⟨_, exec_renderGlyph_of_fontHas hrow hcolumn hfont, fun r hr base hbase => ?_⟩
  subst hbase
  have hbit := fun (i k : Nat) (hi : i < 3) (hk : k < 8) => s.drawGlyph_memRead_pb_getLsbD c hrow hcolumn hr hi hk
  refine ⟨fun hm => ?_, fun hm => ⟨?_, ?_⟩, fun hm => ⟨?_, ?_⟩, fun hm => ?_⟩
  all_goals
    refine BitVec.eq_of_getLsbD_eq fun k hk => ?_
    rw [hm] at hbit
  · refine (hbit 0 k (by decide) hk).trans ?_
    interval_cases k <;> simp
  · refine (hbit 0 k (by decide) hk).trans ?_
    interval_cases k <;> simp
  · refine (hbit 1 k (by decide) hk).trans ?_
    interval_cases k <;> simp
  · refine (hbit 1 k (by decide) hk).trans ?_
    interval_cases k <;> simp
  · refine (hbit 2 k (by decide) hk).trans ?_
    interval_cases k <;> simp
  · refine (hbit 2 k (by decide) hk).trans ?_
    interval_cases k <;> simp

end Sys2Proof.Machine
end

section
/-! The cursor order, the interpreter state after a FEED, escape sequences and the parameter bytes (43_cursor.md R120,
44_interpreter.md R126 to R156, 30_encoding.md R87). -/

namespace Sys2Proof.Machine

/-! ### The cursor order (43_cursor.md R120) -/

theorem State.cursorIndex_lt (s : State) : s.cursorIndex < 32 := by
  have hrow := row_lt s.crow
  have hcolumn := column_lt s.ccol
  unfold State.cursorIndex
  omega

/-- The cursor index tells the cursor. -/
theorem State.cursor_of_cursorIndex_eq {s t : State} (h : t.cursorIndex = s.cursorIndex) :
    t.crow = s.crow ∧ t.ccol = s.ccol := by
  have hcolumn := column_lt s.ccol
  have hcolumn' := column_lt t.ccol
  unfold State.cursorIndex at h
  exact ⟨BitVec.eq_of_toNat_eq (by omega), BitVec.eq_of_toNat_eq (by omega)⟩

/-- One advance adds one to the cursor index modulo 32, in each branch of AdvanceWrapsAtTheRowEnds. -/
theorem State.cursorIndex_advanceAfterGlyph (s : State) : s.advanceAfterGlyph.cursorIndex = (s.cursorIndex + 1) % 32 := by
  obtain ⟨hlast, hend, hinside⟩ := advanceWrapsAtTheRowEnds s
  have hrow := row_lt s.crow
  have hcolumn := column_lt s.ccol
  unfold State.cursorIndex
  by_cases hcol : s.ccol.toNat = 15
  · by_cases hone : s.crow.toNat = 1
    · rw [hlast hcol hone, hcol, hone, BitVec.toNat_ofNat, BitVec.toNat_ofNat]
    · rw [hend hcol (by omega), hcol, show s.crow.toNat = 0 by omega, BitVec.toNat_ofNat, BitVec.toNat_ofNat]
  · rw [hinside (by omega)]
    change s.crow.toNat * 16 + (BitVec.ofNat 4 (s.ccol.toNat + 1)).toNat = _
    rw [BitVec.toNat_ofNat]
    omega

theorem State.cursorIndex_iterate_advance (s : State) (n : Nat) :
    (State.advanceAfterGlyph^[n] s).cursorIndex = (s.cursorIndex + n) % 32 := by
  induction n with
  | zero => exact (Nat.mod_eq_of_lt s.cursorIndex_lt).symm
  | succ n ih =>
    rw [Function.iterate_succ_apply', State.cursorIndex_advanceAfterGlyph, ih]
    omega

/-- Advancing writes the cursor alone. -/
theorem State.iterate_advance_frame (s : State) (n : Nat) :
    State.advanceAfterGlyph^[n] s =
      { s with crow := (State.advanceAfterGlyph^[n] s).crow, ccol := (State.advanceAfterGlyph^[n] s).ccol } := by
  induction n with
  | zero => rfl
  | succ n ih =>
    rw [Function.iterate_succ_apply', ih]
    ext1 <;> simp

/-- Settles O20: the index by induction; after 32 advances it is the one before, and it tells the cursor. -/
theorem advanceVisitsEveryCell : Obligations.AdvanceVisitsEveryCell := by
  refine fun s => ⟨s.cursorIndex_iterate_advance, ?_⟩
  have hindex : (State.advanceAfterGlyph^[32] s).cursorIndex = s.cursorIndex := by
    have hlt := s.cursorIndex_lt
    rw [State.cursorIndex_iterate_advance]
    omega
  obtain ⟨hrow, hcolumn⟩ := State.cursor_of_cursorIndex_eq hindex
  rw [State.iterate_advance_frame, hrow, hcolumn]

/-! ### The interpreter state after a FEED (44_interpreter.md R126) -/

/-- The interpreter state the rule of a class leaves, from the one before it (44_interpreter.md sections 2 to 5). -/
def nextIst (ist : Ist) : FeedClass → Ist
  | .home | .cls | .cr | .lf | .glyph => ist
  | .escape => .afterEsc
  | .rowcol => .awaitRow
  | .cfg => .awaitCfg
  | .row => .awaitCol
  | .eol | .discard | .col | .cinc | .cdec | .binc | .bdec | .cnop => .idle

theorem State.feedStep_ist (s : State) (k : FeedClass) (c : Byte) : (s.feedStep k c).ist = nextIst s.ist k := by
  cases k with
  | glyph =>
    refine State.conclude_of (P := fun u => u.ist = s.ist) (fun t ht => ?_) fun _ => rfl
    rw [(State.displayGlyph_ok ht).2, State.withGlyphDisplayed_eq]
    rfl
  | cls =>
    obtain ⟨t, hclear, hframe, -⟩ := s.fullClear_spec
    rw [State.feedStep, State.feedCls_of_fullClear hclear, hframe]
    rfl
  | eol =>
    obtain ⟨t, hclear, -⟩ := s.clearToEndOfLine_spec
    rw [State.feedStep, State.feedEol_of_clearToEndOfLine hclear]
    rfl
  | col =>
    rw [State.feedStep, State.feedCol]
    split <;> rfl
  | home | escape | cr | lf | rowcol | cfg | discard | row | cinc | cdec | binc | bdec | cnop => rfl

theorem nextIst_of_idle {k : FeedClass} (h : k.ist = .idle) :
    nextIst .idle k = if k = .escape then .afterEsc else .idle := by
  cases k with
  | home | cls | escape | cr | lf | glyph => rfl
  | rowcol | cfg | eol | discard | row | col | cinc | cdec | binc | bdec | cnop => cases h

theorem nextIst_of_awaitCfg (ist : Ist) {k : FeedClass} (h : k.ist = .awaitCfg) : nextIst ist k = .idle := by
  cases k with
  | cinc | cdec | binc | bdec | cnop => rfl
  | home | cls | escape | cr | lf | glyph | rowcol | cfg | eol | discard | row | col => cases h

/-- ESC alone is of class ESCAPE. -/
theorem feedClass_eq_escape {cfg : Config} {ist : Ist} {c : Byte} (h : feedClass cfg ist c = .escape) : c = 0x1B#8 := by
  obtain rfl : ist = .idle := ist_of_feedClass h
  by_contra hEsc
  unfold feedClass at h
  rw [if_neg hEsc] at h
  repeat' split at h
  all_goals cases h

/-- Settles O22: the next state of the class, for the classes of each interpreter state. -/
theorem feedNextInterpreterState : Obligations.FeedNextInterpreterState := by
  refine fun c s => ⟨_, exec_feed_eq c s, ?_⟩
  rw [State.feedStep_ist]
  cases s.ist with
  | idle =>
    by_cases hEsc : c = 0x1B#8
    · subst hEsc; rfl
    · rw [nextIst_of_idle (feedClass_ist _ _ c), if_neg hEsc, if_neg (mt feedClass_eq_escape hEsc)]
  | afterEsc =>
    by_cases hRowcol : c = 0x3D#8
    · subst hRowcol; rfl
    by_cases hCfg : c = 0x21#8
    · subst hCfg; rfl
    rw [if_neg hRowcol, if_neg hCfg]
    by_cases hEol : c = 0x54#8
    · subst hEol; rfl
    · rw [feedClass_afterEsc_of_ne s.cfg hRowcol hCfg hEol]; rfl
  | awaitRow | awaitCol => rfl
  | awaitCfg => exact nextIst_of_awaitCfg _ (feedClass_ist _ _ c)

end Sys2Proof.Machine
end

section
/-! Escape sequences and parameter bytes, each a few FEEDs (44_interpreter.md sections 3 to 7, 30_encoding.md R87). -/

namespace Sys2Proof.Machine

/-! ### Discarded and parameter bytes (44_interpreter.md R137, R138) -/

/-- Settles O24: ESC leaves IDLE for AFTER_ESC, the discarded byte goes back, and neither writes anything else. -/
theorem escapeDiscardLeavesNoTrace : Obligations.EscapeDiscardLeavesNoTrace := by
  intro c s hidle hRowcol hCfg hEol
  refine ⟨_, (exec_feed_of_feedClass hidle (feedClass_idle_esc s.cfg)).trans (exec_idleEsc_eq s), ?_⟩
  have hdiscard : feedClass s.cfg .afterEsc c = .discard := feedClass_afterEsc_of_ne s.cfg hRowcol hCfg hEol
  rw [exec_feed_of_feedClass rfl hdiscard, FeedClass.instr, exec_aescDiscard_eq, State.complete_eq, ← hidle]
  rfl

/-- Settles O25: in a parameter state every byte is of a class of that state, and those of AWAIT_CFG only push. -/
theorem parameterBytesAreData : Obligations.ParameterBytesAreData := by
  refine fun c s => ⟨fun hrow => ?_, fun hcol => ?_, fun hcfg => ?_⟩
  · exact exec_feed_of_feedClass hrow (feedClass_awaitRow s.cfg c)
  · exact exec_feed_of_feedClass hcol (feedClass_awaitCol s.cfg c)
  · obtain ⟨v, w, hpush⟩ := s.feedStep_of_awaitCfg c ((feedClass_ist s.cfg s.ist c).trans hcfg)
    refine ⟨_, exec_feed_eq c s, ?_⟩
    rw [hpush]
    exact ⟨rfl, rfl, rfl, rfl, rfl, rfl⟩

/-! ### ESC 'T' (44_interpreter.md R135, R155, R156) -/

theorem feedClass_afterEsc_T (cfg : Config) : feedClass cfg .afterEsc 0x54#8 = .eol := rfl

theorem exec_aescEol_of_clearToEndOfLine {s t : State} (h : s.clearToEndOfLine = .ok t) :
    exec .aescEol s = .next ({ t with ist := .idle }.complete 0#8) :=
  congrArg Host.Outcome.next (State.feedEol_of_clearToEndOfLine h)

/-- Settles O27: the answer is the clear to the end of the row, which never raises, with `IST` IDLE. -/
theorem clearToEndOfLineBlanksTheRest : Obligations.ClearToEndOfLineBlanksTheRest := by
  refine ⟨fun cfg => decodeKey_or cfg .afterEsc 0x54#8, fun s => ⟨?_, fun hesc => ?_⟩⟩
  · obtain ⟨t, hclear, hframe, hshadow, hpixel, hge, -⟩ := s.clearToEndOfLine_spec
    refine ⟨_, exec_aescEol_of_clearToEndOfLine hclear, ?_, hshadow, fun x y hx _ => hpixel x y hx, hge⟩
    rw [State.complete_eq, hframe]
    rfl
  · exact exec_feed_of_feedClass hesc (feedClass_afterEsc_T s.cfg)

/-! ### `GOTO` (30_encoding.md R87, 44_interpreter.md R139, R141) -/

theorem run_succ_of_step {M : Host.Core} {s t : M.State} (k : Nat) (h : M.step s = .next t) :
    M.run (k + 1) s = M.run k t := by
  rw [Host.Core.run, h]

/-- A run of the block whose first step answers a state goes on from it. -/
theorem core_run_succ_of_step {s t : State} (k : Nat) (h : step s = .next t) : core.run (k + 1) s = core.run k t :=
  run_succ_of_step (M := core) k h

/-- A step that takes the word of a feed byte performs the step of its class. -/
theorem step_of_feedWord {s : State} {c : Byte} {rest : List CmdWord} {k : FeedClass}
    (hpending : s.pending = feedWord c :: rest) (hk : feedClass s.cfg s.ist c = k) :
    step s = .next ({ s with pending := rest }.feedStep k c) := by
  rw [step_of_pending hpending, decodeWord_feedWord, exec_feed_eq]
  exact congrArg (fun k => Host.Outcome.next (State.feedStep { s with pending := rest } k c)) hk

/-- The FEED word of the row byte of `GOTO` (30_encoding.md R87). -/
abbrev gotoRowWord (r : BitVec 1) : CmdWord := feedWord (r.setWidth 8)

/-- The FEED word of the column byte of `GOTO` (30_encoding.md R87). -/
abbrev gotoColumnWord (col : BitVec 4) : CmdWord := feedWord (0x20#8 + col.setWidth 8)

theorem rowOfByte_gotoRowByte (r : BitVec 1) : rowOfByte (r.setWidth 8) = r := by
  have hlt := row_lt r
  rw [rowOfByte_eq, toNat_gotoRowByte, Nat.mod_eq_of_lt hlt, BitVec.ofNat_toNat, BitVec.setWidth_eq]

/-- The column byte of `GOTO` is in the grid, so its column is not clamped. -/
theorem not_columnClamped_gotoColumnByte (col : BitVec 4) : ¬ columnClamped (0x20#8 + col.setWidth 8) = true := by
  have hlt := column_lt col
  rw [columnClamped_iff, toNat_gotoColumnByte]
  omega

theorem columnOfByte_gotoColumnByte (col : BitVec 4) : columnOfByte (0x20#8 + col.setWidth 8) = col := by
  rw [columnOfByte_of_not_clamped (not_columnClamped_gotoColumnByte col), toNat_gotoColumnByte, Nat.add_sub_cancel_left,
    BitVec.ofNat_toNat, BitVec.setWidth_eq]

section
variable {s : State} {rest : List CmdWord}

/-- The step of ESC in IDLE. -/
theorem step_esc_of_idle (hist : s.ist = .idle) (hpending : s.pending = feedWord 0x1B#8 :: rest) :
    step s = .next { s with ist := .afterEsc, pending := rest, result := some 0x0000#16 } := by
  have hk : feedClass s.cfg s.ist 0x1B#8 = .escape := by rw [hist]; exact feedClass_idle_esc s.cfg
  rw [step_of_feedWord hpending hk, State.feedStep, State.feedEscape, State.complete_eq]
  rfl

/-- The step of '=' after ESC. -/
theorem step_equals_of_afterEsc (hist : s.ist = .afterEsc) (hpending : s.pending = feedWord 0x3D#8 :: rest) :
    step s = .next { s with ist := .awaitRow, pending := rest, result := some 0x0000#16 } := by
  have hk : feedClass s.cfg s.ist 0x3D#8 = .rowcol := by rw [hist]; exact feedClass_afterEsc_equals s.cfg
  rw [step_of_feedWord hpending hk, State.feedStep, State.feedRowcol, State.complete_eq]
  rfl

/-- The step of the row byte of `GOTO`. -/
theorem step_gotoRowWord (r : BitVec 1) (hist : s.ist = .awaitRow) (hpending : s.pending = gotoRowWord r :: rest) :
    step s = .next { s with crow := r, ist := .awaitCol, pending := rest, result := some 0x0000#16 } := by
  have hk : feedClass s.cfg s.ist (r.setWidth 8) = .row := by rw [hist]; exact feedClass_awaitRow s.cfg _
  rw [step_of_feedWord hpending hk, State.feedStep, State.feedRow, rowOfByte_gotoRowByte, State.complete_eq]
  rfl

/-- The step of the column byte of `GOTO`. -/
theorem step_gotoColumnWord (col : BitVec 4) (hist : s.ist = .awaitCol)
    (hpending : s.pending = gotoColumnWord col :: rest) :
    step s = .next { s with ccol := col, ist := .idle, pending := rest, result := some 0x0000#16 } := by
  have hk : feedClass s.cfg s.ist (0x20#8 + col.setWidth 8) = .col := by rw [hist]; exact feedClass_awaitCol s.cfg _
  rw [step_of_feedWord hpending hk, State.feedStep, State.feedCol, columnOfByte_gotoColumnByte,
    if_neg (not_columnClamped_gotoColumnByte col), State.complete_eq]
  rfl

end

/-- Settles O34: ESC and '=' lead to AWAIT_ROW, the two operand bytes set the cursor and lead back to IDLE. -/
theorem gotoSequenceSetsTheCursor : Obligations.GotoSequenceSetsTheCursor := by
  intro r col rest s hidle hpending
  calc core.run 4 s
      = core.run 3 { s with ist := .afterEsc, result := some 0x0000#16,
                            pending := feedWord 0x3D#8 :: gotoRowWord r :: gotoColumnWord col :: rest } :=
        core_run_succ_of_step 3 (step_esc_of_idle hidle hpending)
    _ = core.run 2 { s with ist := .awaitRow, result := some 0x0000#16,
                            pending := gotoRowWord r :: gotoColumnWord col :: rest } :=
        core_run_succ_of_step 2 (step_equals_of_afterEsc rfl rfl)
    _ = core.run 1 { s with crow := r, ist := .awaitCol, result := some 0x0000#16, pending := gotoColumnWord col :: rest } :=
        core_run_succ_of_step 1 (step_gotoRowWord r rfl rfl)
    _ = core.run 0 { s with crow := r, ccol := col, ist := .idle, result := some 0x0000#16, pending := rest } :=
        core_run_succ_of_step 0 (step_gotoColumnWord col rfl rfl)
    _ = .next { s with crow := r, ccol := col, pending := rest, result := some 0x0000#16 } := by rw [← hidle]; rfl

end Sys2Proof.Machine
end

section
/-! REDRAW, INIT and CLS (45_redraw_init.md R160 to R168, 44_interpreter.md R128). -/

namespace Sys2Proof.Machine

/-! ### REDRAW (45_redraw_init.md R160, R161) -/

/-- Settles O35: over in-font codes `redraw` answers its rendering, which the operation completes. -/
theorem redrawRendersTheShadowBuffer : Obligations.RedrawRendersTheShadowBuffer := by
  refine ⟨fun w hop => decodeWord_of_opField_five hop, fun s hfont => ?_⟩
  obtain ⟨t, hredraw, hframe, -, hge, -⟩ := s.redraw_spec hfont
  have hrendered : (t.complete 0#8).Rendered := (State.redraw_rendered hfont hredraw).congr rfl rfl rfl
  refine ⟨_, (exec_redraw_eq s).trans (congrArg _ (State.conclude_of_ok hredraw)), ?_, hrendered, hge⟩
  rw [State.complete_eq, hframe]
  rfl

/-! ### The full clear (45_redraw_init.md R163, R164) -/

/-- `t` is `s` after a full clear that left `IST` at `ist`: cursor home, 32 spaces, 192 blank bytes, one `DEVICE_INIT` of
the registers kept, status `OK`. -/
def ClearedFrom (s : State) (ist : Ist) (t : State) : Prop :=
  t = { s with ist := ist, crow := 0#1, ccol := 0#4, shadow := t.shadow, pb := t.pb,
               ev := s.ev ++ [.deviceInit s.contrast s.brightness], result := some 0x0000#16 } ∧
  (∀ a, t.memRead .shadow a = if a < 32 then 0x20#8 else s.memRead .shadow a) ∧
  ∀ a, t.memRead .pb a = if a < 192 then 0x00#8 else s.memRead .pb a

/-- An operation that clears from `IST` set to `ist` completes the clear, and keeps the memories canonical. -/
theorem State.conclude_fullClear_cleared (s : State) (ist : Ist) :
    ClearedFrom s ist (s.conclude { s with ist := ist }.fullClear) ∧
      (s.memoryWf → (s.conclude { s with ist := ist }.fullClear).memoryWf) := by
  obtain ⟨t, hclear, hframe, hshadow, hpb, hwf⟩ := ({ s with ist := ist } : State).fullClear_spec
  rw [State.conclude_of_ok hclear]
  refine ⟨⟨?_, hshadow, hpb⟩, hwf⟩
  rw [State.complete_eq, hframe]
  rfl

theorem exec_init_cleared (s : State) :
    ∃ t, exec .init s = .next t ∧ ClearedFrom s .idle t ∧ (s.memoryWf → t.memoryWf) :=
  ⟨_, exec_init_eq s, s.conclude_fullClear_cleared .idle⟩

theorem exec_idleCls_eq (s : State) : exec .idleCls s = .next (s.conclude s.fullClear) := rfl

/-- Settles O36: INIT is the full clear from IDLE. -/
theorem initClearsTheBlock : Obligations.InitClearsTheBlock := by
  refine ⟨fun w hop => decodeWord_of_opField_one hop, fun s => ?_⟩
  obtain ⟨t, ht, hcleared, -⟩ := exec_init_cleared s
  exact ⟨t, ht, hcleared⟩

/-- Settles O37: CLS is the full clear without the change of `IST`, so in IDLE it is INIT. -/
theorem clsClearsTheScreen : Obligations.ClsClearsTheScreen := by
  refine ⟨fun cfg => ?_, fun s => ⟨⟨_, exec_idleCls_eq s, (s.conclude_fullClear_cleared s.ist).1⟩, fun hidle => ⟨?_, ?_⟩⟩⟩
  · have hkey := decodeKey_or cfg .idle cfg.codeCls
    rwa [feedClass_idle_codeCls] at hkey
  · exact exec_feed_of_feedClass hidle (feedClass_idle_codeCls s.cfg)
  · rw [exec_idleCls_eq, exec_init_eq, ← hidle]

/-! ### INIT twice, and after reset (45_redraw_init.md R167, 70_reset_and_hazards.md R198) -/

/-- Two states in canonical form that differ at most in the memories, and read alike there, are the same state. -/
theorem State.eq_of_memRead {s t : State} (hs : s.memoryWf) (ht : t.memoryWf)
    (hframe : t = { s with shadow := t.shadow, pb := t.pb })
    (hshadow : ∀ a, a < 32 → t.memRead .shadow a = s.memRead .shadow a)
    (hpb : ∀ a, a < 192 → t.memRead .pb a = s.memRead .pb a) : t = s := by
  have hc : t.cfg = s.cfg := by rw [hframe]
  obtain ⟨htpb, htshadow⟩ := ht
  rw [hc] at htpb htshadow
  have hpb' : t.pb = s.pb := Memory.eq_of_read_eq htpb hs.1 fun a ha => by
    simpa [State.memRead, State.space, hc] using hpb a ha
  have hshadow' : t.shadow = s.shadow := Memory.eq_of_read_eq htshadow hs.2 fun a ha => by
    simpa [State.memRead, State.space, hc] using hshadow a ha
  rw [hframe, hshadow', hpb']

/-- Settles O38: both INITs leave canonical memories that read as cleared, so the same ones. -/
theorem initIsIdempotent : Obligations.InitIsIdempotent := by
  intro s hwf
  obtain ⟨t, ht, ⟨hframe, hshadow, hpb⟩, hwft⟩ := exec_init_cleared s
  obtain ⟨u, hu, ⟨hframe', hshadow', hpb'⟩, hwfu⟩ := exec_init_cleared t
  refine ⟨t, ht, hu.trans (congrArg _ ?_)⟩
  refine State.eq_of_memRead (s := { t with ev := t.ev ++ [.deviceInit s.contrast s.brightness] }) (hwft hwf)
    (hwfu (hwft hwf)) ?_ (fun a ha => ?_) fun a ha => ?_
  · rw [hframe', hframe]
  · exact (hshadow' a).trans ((if_pos ha).trans ((if_pos ha).symm.trans (hshadow a).symm))
  · exact (hpb' a).trans ((if_pos ha).trans ((if_pos ha).symm.trans (hpb a).symm))

/-- Settles O42: the clear from the reset state, whose registers and event record are listed. -/
theorem resetThenInitIsThePostInitState : Obligations.ResetThenInitIsThePostInitState := by
  obtain ⟨t, ht, ⟨hframe, hshadow, hpb⟩, -⟩ := exec_init_cleared State.reset
  have hregs : t.ist = .idle ∧ t.crow = 0#1 ∧ t.ccol = 0#4 ∧ t.contrast = 128#8 ∧ t.brightness = 128#8 ∧ t.fault = 0#8 ∧
      t.ev = [.deviceInit 128#8 128#8] := by
    rw [hframe]
    exact ⟨rfl, rfl, rfl, rfl, rfl, rfl, rfl⟩
  obtain ⟨hist, hcrow, hccol, hcon, hbri, hfault, hev⟩ := hregs
  exact ⟨t, ht, hist, hcrow, hccol, hcon, hbri, hfault, fun a ha => (hshadow a).trans (if_pos ha),
    fun a ha => (hpb a).trans (if_pos ha), hev⟩

end Sys2Proof.Machine
end
